-- ==== Sys2Proof/Word.lean ====
section
/-! DEFINITION. The words of moribund CORE and the sizes its source fixes (00_scope.md R6, R8; 10_state.md R21
to R27). Every value is unsigned; bit 0 is the least significant. -/

namespace Sys2Proof

/-- A byte: an instruction, a literal, a cell of a stack (R8). -/
abbrev Byte := BitVec 8

/-- The jump target `tar` (R26): `TAR_BITS` = 16. -/
abbrev Addr := BitVec 16

/-- The width of the accumulator `tmp` (R25): `TMP_BITS` = 32. -/
abbrev Word := BitVec 32

/-- The index of a stack in the bank, `N_STACKS` = 4 (R6, R31). -/
abbrev StackIndex := Fin 4

/-- The fill count of a stack, 0 to `STACK_CAP` = 1024 (R6, R31): a bounded natural, as D3 allows (log 5). That `SIZE_BITS`
bits hold it is a condition on the parameter (`RegisterWidths.wf`). -/
abbrev FillCount := Fin 1025

end Sys2Proof
end

