-- ==== Sys2Proof/Syntax.lean ====
section
/-! DEFINITION. The instructions of moribund CORE: one constructor for each row of spec/opcode_table.json
(30_encoding.md R83, R86, R89), and the mode each row is read in (R82). -/

namespace Sys2Proof

/-- The instructions. No opcode has an operand field (R80, R81); NOP and LIT keep the byte they were read from,
because several bytes share the row. -/
inductive Instr where
  /-- Select operand size 1 (R128). -/
  | os1
  /-- Select operand size 2 (R129). -/
  | os2
  /-- Select operand size 4 (R130). -/
  | os4
  /-- Select primary stack A (R120). -/
  | psa
  /-- Select primary stack B (R121). -/
  | psb
  /-- Select primary stack C (R122). -/
  | psc
  /-- Select primary stack D (R123). -/
  | psd
  /-- Select secondary stack A (R124). -/
  | ssa
  /-- Select secondary stack B (R125). -/
  | ssb
  /-- Select secondary stack C (R126). -/
  | ssc
  /-- Select secondary stack D (R127). -/
  | ssd
  /-- Pop into the accumulator (R144). -/
  | pop
  /-- Push from the accumulator (R145). -/
  | push
  /-- Duplicate the top operand (R146). -/
  | dup
  /-- Arm literal capture (R147). -/
  | set
  /-- Unconditional jump (R161). -/
  | jmp
  /-- Jump if primary less than secondary (R162). -/
  | jl
  /-- Jump if primary equals secondary (R163). -/
  | je
  /-- End the run (R106). -/
  | halt
  /-- Any byte of decode mode that is no dispatched opcode (R107). -/
  | nop (b : Byte)
  /-- Any byte of literal-capture mode (R148). -/
  | lit (b : Byte)
  deriving DecidableEq, Repr

/-- The two modes of the dispatcher (40_dispatcher.md R101); decoding modes, no privilege modes (R192). -/
inductive Mode where
  | decode
  | literal
  deriving DecidableEq, Repr

/-- The mode whose steps read this instruction (R82; column "mode" of the opcode table). -/
def Instr.mode : Instr → Mode
  | .lit _ => .literal
  | .os1 | .os2 | .os4 | .psa | .psb | .psc | .psd | .ssa | .ssb | .ssc | .ssd | .pop | .push | .dup | .set | .jmp
  | .jl | .je | .halt | .nop _ => .decode

/-- The mnemonic of the instruction's row. The spelling is the spec's own (R90, D18; log 20). -/
def Instr.mnemonic : Instr → String
  | .os1 => "OS1"
  | .os2 => "OS2"
  | .os4 => "OS4"
  | .psa => "PSA"
  | .psb => "PSB"
  | .psc => "PSC"
  | .psd => "PSD"
  | .ssa => "SSA"
  | .ssb => "SSB"
  | .ssc => "SSC"
  | .ssd => "SSD"
  | .pop => "POP"
  | .push => "PUSH"
  | .dup => "DUP"
  | .set => "SET"
  | .jmp => "JMP"
  | .jl => "JL"
  | .je => "JE"
  | .halt => "HALT"
  | .nop _ => "NOP"
  | .lit _ => "LIT"

end Sys2Proof
end

