-- ==== Sys2Proof/Config.lean ====
section
/-! DEFINITION. The parameters the source leaves open (00_scope.md R7; the table at the end of
92_eei_decisions.md), as plain data. The values the spec chooses are in Decode.lean (`defaultOpcodeMap`) and
Machine/Parameters.lean (`defaultConfig`). -/

namespace Sys2Proof

/-- The five faults; the list is closed (60_exceptions.md R180). -/
inductive FaultKind where
  /-- A push onto a stack of 1024 bytes (R52). -/
  | stackOverflow
  /-- A pop of an empty stack (R53). -/
  | stackUnderflow
  /-- A stack requested by a selector above 3 (R182). -/
  | invalidStackSelector
  /-- A size-sensitive operation with `os` outside 1, 2, 4 (R183). -/
  | invalidOperandSize
  /-- An increment to 1024 or more (R105), or a fetch there (R102). -/
  | programCounterOutOfBounds
  deriving DecidableEq, Repr

/-- `OPCODE_MAP`: the byte value of each of the 19 dispatched opcodes (R83, D1). -/
structure OpcodeMap where
  os1 : Byte
  os2 : Byte
  os4 : Byte
  psa : Byte
  psb : Byte
  psc : Byte
  psd : Byte
  ssa : Byte
  ssb : Byte
  ssc : Byte
  ssd : Byte
  pop : Byte
  push : Byte
  dup : Byte
  set : Byte
  jmp : Byte
  jl : Byte
  je : Byte
  halt : Byte
  deriving DecidableEq, Repr

/-- The table of R83: one row for each dispatched opcode, in the table's order. -/
def OpcodeMap.rows (m : OpcodeMap) : List (Instr × Byte) :=
  [(.os1, m.os1), (.os2, m.os2), (.os4, m.os4), (.psa, m.psa), (.psb, m.psb), (.psc, m.psc), (.psd, m.psd),
    (.ssa, m.ssa), (.ssb, m.ssb), (.ssc, m.ssc), (.ssd, m.ssd), (.pop, m.pop), (.push, m.push), (.dup, m.dup),
    (.set, m.set), (.jmp, m.jmp), (.jl, m.jl), (.je, m.je), (.halt, m.halt)]

/-- The names of the four stacks (10_state.md R31). -/
inductive StackName where
  | a
  | b
  | c
  | d
  deriving DecidableEq, Repr

/-- `STACK_NAME`: the index each stack name stands for (D2). -/
structure StackNames where
  a : StackIndex
  b : StackIndex
  c : StackIndex
  d : StackIndex
  deriving DecidableEq, Repr

/-- The index of the stack named `n`. -/
def StackNames.index (t : StackNames) : StackName → StackIndex
  | .a => t.a
  | .b => t.b
  | .c => t.c
  | .d => t.d

/-- `POP_MERGE`: whether POP clears or keeps the bits of `tmp` above the assembled value (R144, D6). -/
inductive PopMerge where
  | zero
  | keep
  deriving DecidableEq, Repr

/-- `POP_FIRST_POPPED`: whether the first byte POP pops is the least or the most significant (R142, D7). -/
inductive PopFirstPopped where
  | leastSignificant
  | mostSignificant
  deriving DecidableEq, Repr

/-- `PEEK_ALIAS`: how JL and JE read their operands when `ps = ss` (43_jumps.md R164, D9). -/
inductive PeekAlias where
  | sequential
  | interleaved
  deriving DecidableEq, Repr

/-- `FAULT_CODE`: the code of each fault on the status port (60_exceptions.md R181, D14); three bits wide, as
`fault_kind` is (10_state.md R43). -/
structure FaultCodes where
  stackOverflow : BitVec 3
  stackUnderflow : BitVec 3
  invalidStackSelector : BitVec 3
  invalidOperandSize : BitVec 3
  programCounterOutOfBounds : BitVec 3
  deriving DecidableEq, Repr

/-- The code of one fault. -/
def FaultCodes.code (t : FaultCodes) : FaultKind → BitVec 3
  | .stackOverflow => t.stackOverflow
  | .stackUnderflow => t.stackUnderflow
  | .invalidStackSelector => t.invalidStackSelector
  | .invalidOperandSize => t.invalidOperandSize
  | .programCounterOutOfBounds => t.programCounterOutOfBounds

/-- The register widths the source does not give (R7, D3; log 5), in bits: how large a value each register can hold. -/
structure RegisterWidths where
  /-- `PC_BITS`: the width of `pc` (R21). -/
  pcBits : Nat
  /-- `SEL_BITS`: the width of `ps` and of `ss` (R22, R23). -/
  selBits : Nat
  /-- `OS_BITS`: the width of `os` (R24). -/
  osBits : Nat
  /-- `SC_BITS`: the width of `sc` (R27). -/
  scBits : Nat
  /-- `SIZE_BITS`: the width of a stack's `size` (R31). -/
  sizeBits : Nat
  deriving DecidableEq, Repr

/-- The configuration: the nine parameters of R7. -/
structure Config where
  opcodeMap : OpcodeMap
  stackName : StackNames
  widths : RegisterWidths
  /-- `JUMP_POST_INCREMENT` (D4): the increment follows a taken jump. -/
  jumpPostIncrement : Bool
  /-- `HALT_INCREMENTS_PC` (D5): HALT passes through the increment and its bound check. -/
  haltIncrementsPc : Bool
  popMerge : PopMerge
  popFirstPopped : PopFirstPopped
  peekAlias : PeekAlias
  faultCode : FaultCodes
  deriving DecidableEq, Repr

end Sys2Proof
end

