-- ==== Sys2Proof/WellFormed.lean ====
section
/-! DEFINITION. What a well-formed configuration and a well-formed instruction are: the conditions
92_eei_decisions.md's table of open parameters puts on the parameters, and the bytes each row of the opcode table
admits (30_encoding.md R82, R83, R86). -/

namespace Sys2Proof

/-- The 19 values are pairwise distinct (R82). -/
def OpcodeMap.distinct (m : OpcodeMap) : Bool :=
  decide (m.rows.map Prod.snd).Nodup

/-- The five values the source gives (R83): OS1, PSA, SET, POP, HALT. -/
def OpcodeMap.keepsSource (m : OpcodeMap) : Bool :=
  m.os1 == 0x01#8 && m.psa == 0x1A#8 && m.set == 0x5E#8 && m.pop == 0x50#8 && m.halt == 0xFF#8

/-- A legal `OPCODE_MAP`: injective, with the five source values fixed (D1). -/
def OpcodeMap.wf (m : OpcodeMap) : Bool :=
  m.distinct && m.keepsSource

/-- A legal `STACK_NAME`: a bijection between the four names and the four indices (D2). -/
def StackNames.wf (t : StackNames) : Bool :=
  decide [t.a, t.b, t.c, t.d].Nodup

/-- The five codes as a list, in the order of R181. -/
def FaultCodes.all (t : FaultCodes) : List (BitVec 3) :=
  [t.stackOverflow, t.stackUnderflow, t.invalidStackSelector, t.invalidOperandSize, t.programCounterOutOfBounds]

/-- A legal `FAULT_CODE`: five distinct codes, none zero (92_eei_decisions.md, table of open parameters). -/
def FaultCodes.wf (t : FaultCodes) : Bool :=
  decide t.all.Nodup && !t.all.contains 0#3

/-- Legal widths (92_eei_decisions.md, table of open parameters): `PC_BITS` at least 16, so that `pc <- tar` is lossless, and
the others at least 2, 3, 3 and 11, so that every legal value fits. -/
def RegisterWidths.wf (w : RegisterWidths) : Bool :=
  decide (16 ≤ w.pcBits) && decide (2 ≤ w.selBits) && decide (3 ≤ w.osBits) && decide (3 ≤ w.scBits) &&
    decide (11 ≤ w.sizeBits)

/-- A legal configuration. -/
def Config.wf (c : Config) : Bool :=
  c.opcodeMap.wf && c.stackName.wf && c.widths.wf && c.faultCode.wf

/-- A well-formed instruction under an opcode map: a NOP's byte is none of the 19 dispatched values (R86, R107);
every other instruction is well formed, a literal with any byte (R148). -/
def Instr.wf (m : OpcodeMap) : Instr → Bool
  | .nop b => !(m.rows.map Prod.snd).contains b
  | .lit _ => true
  | .os1 | .os2 | .os4 | .psa | .psb | .psc | .psd | .ssa | .ssb | .ssc | .ssd | .pop | .push | .dup | .set | .jmp
  | .jl | .je | .halt => true

end Sys2Proof
end

