-- ==== Sys2Proof/Decode.lean ====
section
/-! DEFINITION. Decoding and encoding (30_encoding.md R80 to R89), and the default opcode map (R83, R84). -/

namespace Sys2Proof

/-- The default `OPCODE_MAP` (R83). OS1, PSA, SET, POP and HALT are the source's values; the other 14 are the
spec's DESIGN CHOICE D1 (log 3, unsafe). -/
def defaultOpcodeMap : OpcodeMap where
  os1 := 0x01#8
  os2 := 0x02#8
  os4 := 0x04#8
  psa := 0x1A#8
  psb := 0x1B#8
  psc := 0x1C#8
  psd := 0x1D#8
  ssa := 0x2A#8
  ssb := 0x2B#8
  ssc := 0x2C#8
  ssd := 0x2D#8
  pop := 0x50#8
  push := 0x51#8
  dup := 0x52#8
  set := 0x5E#8
  jmp := 0x60#8
  jl := 0x61#8
  je := 0x62#8
  halt := 0xFF#8

/-- The mode of a step: literal capture while `sc > 0` (40_dispatcher.md R101). -/
def modeOf (sc : Nat) : Mode :=
  if sc = 0 then .decode else .literal

/-- What a byte means in decode mode: the row whose value it has, else NOP (R82, R86). -/
def decodeOpcode (m : OpcodeMap) (b : Byte) : Instr :=
  match m.rows.find? (fun r => r.2 == b) with
  | some r => r.1
  | none => .nop b

/-- `Decode(sc, b)` of R82: the mode first, the byte second. Total: no byte is refused in either mode. -/
def decode (m : OpcodeMap) (sc : Nat) (b : Byte) : Instr :=
  match modeOf sc with
  | .literal => .lit b
  | .decode => decodeOpcode m b

/-- The only way reading an instruction from a list of bytes can fail: no byte is there. -/
inductive DecodeError where
  | noByte
  deriving DecidableEq, Repr

/-- Reads one instruction from the front of a byte list, and gives the rest: every instruction is one byte (R80). -/
def decodeBytes (m : OpcodeMap) (sc : Nat) : List Byte → Except DecodeError (Instr × List Byte)
  | [] => .error .noByte
  | b :: rest => .ok (decode m sc b, rest)

/-- The byte of an instruction (R83; NOP and LIT carry their own, R86, R148). -/
def encode (m : OpcodeMap) : Instr → Byte
  | .os1 => m.os1
  | .os2 => m.os2
  | .os4 => m.os4
  | .psa => m.psa
  | .psb => m.psb
  | .psc => m.psc
  | .psd => m.psd
  | .ssa => m.ssa
  | .ssb => m.ssb
  | .ssc => m.ssc
  | .ssd => m.ssd
  | .pop => m.pop
  | .push => m.push
  | .dup => m.dup
  | .set => m.set
  | .jmp => m.jmp
  | .jl => m.jl
  | .je => m.je
  | .halt => m.halt
  | .nop b => b
  | .lit b => b

/-- The bytes of an instruction: always one (R80). -/
def encodeBytes (m : OpcodeMap) (i : Instr) : List Byte :=
  [encode m i]

/-- The instruction this decoder reads from an opcode-table word `w` under the default map, in decode mode, the
mode of a program's first step (10_state.md R27; log 25). Every row is one byte, so the bits above bit 7 are no part of it. -/
def decodeTableWord (_nbits w : Nat) : Option Instr :=
  match decodeBytes defaultOpcodeMap 0 [BitVec.ofNat 8 w] with
  | .ok r => some r.1
  | .error _ => none

/-! Each constructor decoded from its byte, the bytes written out from the table of R83 and the grid of R84. -/

theorem decode_os1 : decode defaultOpcodeMap 0 0x01 = .os1 := by decide
theorem decode_os2 : decode defaultOpcodeMap 0 0x02 = .os2 := by decide
theorem decode_os4 : decode defaultOpcodeMap 0 0x04 = .os4 := by decide
theorem decode_psa : decode defaultOpcodeMap 0 0x1A = .psa := by decide
theorem decode_psb : decode defaultOpcodeMap 0 0x1B = .psb := by decide
theorem decode_psc : decode defaultOpcodeMap 0 0x1C = .psc := by decide
theorem decode_psd : decode defaultOpcodeMap 0 0x1D = .psd := by decide
theorem decode_ssa : decode defaultOpcodeMap 0 0x2A = .ssa := by decide
theorem decode_ssb : decode defaultOpcodeMap 0 0x2B = .ssb := by decide
theorem decode_ssc : decode defaultOpcodeMap 0 0x2C = .ssc := by decide
theorem decode_ssd : decode defaultOpcodeMap 0 0x2D = .ssd := by decide
theorem decode_pop : decode defaultOpcodeMap 0 0x50 = .pop := by decide
theorem decode_push : decode defaultOpcodeMap 0 0x51 = .push := by decide
theorem decode_dup : decode defaultOpcodeMap 0 0x52 = .dup := by decide
theorem decode_set : decode defaultOpcodeMap 0 0x5E = .set := by decide
theorem decode_jmp : decode defaultOpcodeMap 0 0x60 = .jmp := by decide
theorem decode_jl : decode defaultOpcodeMap 0 0x61 = .jl := by decide
theorem decode_je : decode defaultOpcodeMap 0 0x62 = .je := by decide
theorem decode_halt : decode defaultOpcodeMap 0 0xFF = .halt := by decide
theorem decode_nop : decode defaultOpcodeMap 0 0x37 = .nop 0x37 := by decide
theorem decode_lit : decode defaultOpcodeMap 1 0xFF = .lit 0xFF := by decide

end Sys2Proof
end

