-- ==== Sys2Proof/Machine/Parameters.lean ====
section
/-! DEFINITION. The configuration the spec chooses by default (00_scope.md R7; 92_eei_decisions.md D1 to D14). It
stands here, and not in Config.lean, so that a value a test shows wrong can be mended in one place. -/

namespace Sys2Proof.Machine

/-- `STACK_NAME`: A=0, B=1, C=2, D=3. DESIGN CHOICE D2 (log 4). -/
def defaultStackNames : StackNames := ⟨0, 1, 2, 3⟩

/-- `FAULT_CODE`: 1 to 5 in the order of R181's table. DESIGN CHOICE D14 (log 16). -/
def defaultFaultCodes : FaultCodes := ⟨1#3, 2#3, 3#3, 4#3, 5#3⟩

/-- `PC_BITS`, `SEL_BITS`, `OS_BITS`, `SC_BITS`, `SIZE_BITS`: 16, 8, 8, 8, 11. DESIGN CHOICE D3 (log 5). -/
def defaultWidths : RegisterWidths := ⟨16, 8, 8, 8, 11⟩

/-- Every parameter at the spec's default. DESIGN CHOICES D1 to D7, D9, D14 (logs 3 to 9, 11, 16). -/
def defaultConfig : Config where
  opcodeMap := defaultOpcodeMap
  stackName := defaultStackNames
  widths := defaultWidths
  jumpPostIncrement := true
  haltIncrementsPc := false
  popMerge := .zero
  popFirstPopped := .leastSignificant
  peekAlias := .sequential
  faultCode := defaultFaultCodes

end Sys2Proof.Machine
end

