-- ==== Sys2Proof/Machine/State.lean ====
section
/-! DEFINITION. The state of moribund CORE as plain data (10_state.md R20 to R36) and the state after reset
(70_reset_and_hazards.md R210). -/

namespace Sys2Proof.Machine

/-- A memory of bytes: cells at strictly rising addresses, none of them zero; an address that is not listed holds 0,
the content the source gives before any write (R31 "created zeroed", R33 "already zero-initialized"). -/
abbrev Memory := List Host.Cell

/-- The canonical form of a memory of 1024 bytes: addresses strictly rising and below 1024 (R31, R33), no cell listed
with the value an unlisted address has. -/
abbrev Memory.wf (m : Memory) : Prop :=
  m.Pairwise (fun c d => c.1 < d.1) ∧ ∀ c ∈ m, c.1 < 1024 ∧ c.2 ≠ 0#8

/-- One LIFO stack of the bank (R31): 1024 bytes and the count of valid ones. Bytes at `size` and above are stale and
still state (R32, D19; log 21). -/
structure ByteStack where
  data : Memory
  size : FillCount
  deriving DecidableEq, Repr

/-- The stack bank: four stacks by index (R31). -/
structure StackBank where
  stk0 : ByteStack
  stk1 : ByteStack
  stk2 : ByteStack
  stk3 : ByteStack
  deriving DecidableEq, Repr

/-- The run status (R30): seven values. -/
inductive Status where
  | running
  | halted
  | faulted (k : FaultKind)
  deriving DecidableEq, Repr

/-- Why `step` has no next state. No meaning of an instruction answers with one: an instruction that raises a fault of
the machine gives a next state whose status is `faulted` (R186). -/
inductive Fault where
  /-- Raised by `step` in a state with status HALTED: it is terminal and has no step (R108). Safe. -/
  | halted
  /-- Raised by `step` in a state with status FAULTED(k): it is terminal and has no step (R108). Safe. -/
  | faulted (k : FaultKind)
  deriving DecidableEq, Repr

/-- What is refused by name. -/
inductive Refusal where
  /-- Raised by an arm of `exec` that has no meaning yet: none is left. Safe. -/
  | notModelled (mnemonic : String)
  /-- Raised by `hostAct` when the host loads `mem` during a run, with reset released and the status RUNNING, to which the
  spec gives no meaning (60_exceptions.md R200, U15). Safe. -/
  | loadWhileRunning
  /-- Raised by `hostAct` when the host reads the report while the status is RUNNING, to which the spec gives no meaning
  (60_exceptions.md R200, U15). Safe. -/
  | reportWhileRunning
  deriving DecidableEq, Repr

/-- The state (R20), and the two parameters of the step relation of R36, `mem` and `cfg`, which no step writes (log 1). The
registers whose width is a parameter are natural numbers, as D3 allows (log 5); that each fits its width is `State.Fits`
(Safety.lean), which every step keeps. -/
structure State where
  /-- Program counter (R21), below `2 ^ PC_BITS`. -/
  pc : Nat
  /-- Primary stack selector (R22), below `2 ^ SEL_BITS`. -/
  ps : Nat
  /-- Secondary stack selector (R23), below `2 ^ SEL_BITS`. -/
  ss : Nat
  /-- Operand size in bytes (R24), below `2 ^ OS_BITS`. -/
  os : Nat
  /-- Accumulator (R25). -/
  tmp : Word
  /-- Jump target (R26). -/
  tar : Addr
  /-- Literal-capture counter (R27), below `2 ^ SC_BITS`. -/
  sc : Nat
  /-- Run status (R30). -/
  status : Status
  /-- The stack bank (R31). -/
  stk : StackBank
  /-- Program memory (R33). -/
  mem : Memory
  /-- The parameters the source leaves open (00_scope.md R7). -/
  cfg : Config
  deriving DecidableEq, Repr

/-- A stack after `Reset(i)`: all zero, size 0 (20_memory.md R54). -/
def ByteStack.empty : ByteStack := ⟨[], 0⟩

/-- The reset state of R210. No image is loaded (every byte of `mem` reads 0, log 23), and the parameters have the
spec's defaults. -/
def State.reset : State where
  pc := 0
  ps := 0
  ss := 0
  os := 1
  tmp := 0
  tar := 0
  sc := 0
  status := .running
  stk := ⟨ByteStack.empty, ByteStack.empty, ByteStack.empty, ByteStack.empty⟩
  mem := []
  cfg := defaultConfig

end Sys2Proof.Machine
end

