-- ==== Sys2Proof/Machine/Ops.lean ====
section
/-! DEFINITION. The shared operations: memory cells, the ByteStack primitives (20_memory.md R52 to R54), the register
writes (10_state.md R45), the multi-byte helpers (42_stack_transfer.md R140, R141), the fetch and the increment
(40_dispatcher.md R102, R105), and taking a fault (60_exceptions.md R186). -/

namespace Sys2Proof.Machine

/-! ### Memory cells -/

/-- The byte at an address: the listed one, else 0. -/
def Memory.read : Memory → Nat → Byte
  | [], _ => 0#8
  | (x, v) :: rest, a => if x = a then v else Memory.read rest a

/-- A nonzero cell put before the first listed cell of a higher address. -/
def Memory.insert (a : Nat) (b : Byte) : Memory → Memory
  | [] => [(a, b)]
  | c :: rest => if a < c.1 then (a, b) :: c :: rest else c :: Memory.insert a b rest

/-- The memory with the byte `b` at address `a`, in canonical form again: the old cell goes, and a new one comes unless
`b` is what an unlisted address holds. -/
def Memory.write (m : Memory) (a : Nat) (b : Byte) : Memory :=
  if b = 0#8 then m.filter (fun c => c.1 != a) else Memory.insert a b (m.filter (fun c => c.1 != a))

/-- A list of bytes laid out from an address on, the excess above address 1023 ignored. -/
def imageFrom : Nat → List Byte → Memory
  | _, [] => []
  | a, b :: rest =>
    if 1024 ≤ a then []
    else if b = 0#8 then imageFrom (a + 1) rest
    else (a, b) :: imageFrom (a + 1) rest

/-- The program memory loaded from a file's bytes: zero-filled to 1024 bytes, the excess ignored
(70_reset_and_hazards.md R213). -/
def loadImage (file : List Byte) : Memory := imageFrom 0 file

/-! ### The ByteStack primitives -/

/-- `Push` on one stack (R52). -/
def ByteStack.push (st : ByteStack) (b : Byte) : Except FaultKind ByteStack :=
  if h : st.size.val < 1024 then
    .ok ⟨Memory.write st.data st.size.val b, ⟨st.size.val + 1, by omega⟩⟩
  else .error .stackOverflow

/-- `Pop` on one stack (R53): `data` is not changed, the byte stays as a stale one (DESIGN CHOICE D19, log 21). -/
def ByteStack.pop (st : ByteStack) : Except FaultKind (Byte × ByteStack) :=
  if st.size.val = 0 then .error .stackUnderflow
  else .ok (Memory.read st.data (st.size.val - 1), ⟨st.data, ⟨st.size.val - 1, by omega⟩⟩)

/-- The stack of index `i`. -/
def StackBank.get (k : StackBank) (i : StackIndex) : ByteStack :=
  match i with
  | 0 => k.stk0
  | 1 => k.stk1
  | 2 => k.stk2
  | 3 => k.stk3

/-- The bank with `st` as the stack of index `i`. -/
def StackBank.put (k : StackBank) (i : StackIndex) (st : ByteStack) : StackBank :=
  match i with
  | 0 => { k with stk0 := st }
  | 1 => { k with stk1 := st }
  | 2 => { k with stk2 := st }
  | 3 => { k with stk3 := st }

/-! ### Actions: sequences of writes that a fault ends

An action reads and writes the state. It ends with a value, or with a fault; either way it gives the state with every
write made so far, because a fault undoes none of them (00_scope.md R11, 60_exceptions.md R187; DESIGN CHOICE D10,
log 12). -/

/-- A sequence of writes that may raise a fault. -/
abbrev Action (α : Type) := EStateM FaultKind State α

/-- `raise F` (R11). -/
def raise {α : Type} (k : FaultKind) : Action α := fun s => .error k s

/-- Reads something of the state. -/
def readState {α : Type} (f : State → α) : Action α := fun s => .ok (f s) s

/-- Writes `pc` (R21). -/
def writePc (v : Nat) : Action Unit := fun s => .ok () { s with pc := v }

/-- Writes `ps` (R22). -/
def writePs (v : Nat) : Action Unit := fun s => .ok () { s with ps := v }

/-- Writes `ss` (R23). -/
def writeSs (v : Nat) : Action Unit := fun s => .ok () { s with ss := v }

/-- Writes `os` (R24). -/
def writeOs (v : Nat) : Action Unit := fun s => .ok () { s with os := v }

/-- Writes `tmp` (R25). -/
def writeTmp (v : Word) : Action Unit := fun s => .ok () { s with tmp := v }

/-- Writes `tar` (R26). Reset uses it and no instruction does: the register file offers a write of each of its seven
registers (R45), and no opcode loads `tar`. -/
def writeTar (v : Addr) : Action Unit := fun s => .ok () { s with tar := v }

/-- Writes `sc` (R27). -/
def writeSc (v : Nat) : Action Unit := fun s => .ok () { s with sc := v }

/-- Writes `status` (R30); HALT and reset use it, a fault goes through `takeFault`. -/
def writeStatus (v : Status) : Action Unit := fun s => .ok () { s with status := v }

/-- `Push(i, b)` (R52). -/
def pushByte (i : StackIndex) (b : Byte) : Action Unit := fun s =>
  match (s.stk.get i).push b with
  | .ok st => .ok () { s with stk := s.stk.put i st }
  | .error k => .error k s

/-- `Pop(i)` (R53). -/
def popByte (i : StackIndex) : Action Byte := fun s =>
  match (s.stk.get i).pop with
  | .ok (b, st) => .ok b { s with stk := s.stk.put i st }
  | .error k => .error k s

/-- `Reset(i)` (R54): the stack of index `i` is all zero with size 0. It cannot fault, and no instruction calls it. -/
def resetStack (i : StackIndex) : Action Unit := fun s => .ok () { s with stk := s.stk.put i ByteStack.empty }

/-- `PopN(i, n)` (R140): the bytes in pop order, the old top first. -/
def popN (i : StackIndex) : Nat → Action (List Byte)
  | 0 => pure []
  | n + 1 => do
    let b ← popByte i
    let rest ← popN i n
    pure (b :: rest)

/-- Pushes a list of bytes, its head first. -/
def pushAll (i : StackIndex) : List Byte → Action Unit
  | [] => pure ()
  | b :: rest => do
    pushByte i b
    pushAll i rest

/-- `PushBack(i, b, n)` (R141): bytes in pop order go back in the reverse order. -/
def pushBack (i : StackIndex) (bs : List Byte) : Action Unit := pushAll i bs.reverse

/-! ### The fetch, the increment, faults and reset -/

/-- The fetch (R102): the byte at `pc`, or a fault before anything is read (DESIGN CHOICE D13, log 15). -/
def fetch (s : State) : Except FaultKind Byte :=
  if s.pc < 1024 then .ok (Memory.read s.mem s.pc) else .error .programCounterOutOfBounds

/-- `IncrementPc` (R105): the sum is not wrapped before it is compared (DESIGN CHOICE D13, log 15). -/
def incrementPc : Action Unit := fun s =>
  if 1024 ≤ s.pc + 1 then .error .programCounterOutOfBounds s
  else .ok () { s with pc := s.pc + 1 }

/-- Taking a fault (R186): the status says which, and nothing else is written. There is no return from one (R190). -/
def takeFault (k : FaultKind) (s : State) : State := { s with status := .faulted k }

/-- The writes of reset (R210): every register of the register file, the status, and the four stacks. -/
def resetPhase : Action Unit := do
  writePc 0
  writePs 0
  writeSs 0
  writeOs 1
  writeTmp 0
  writeTar 0
  writeSc 0
  writeStatus .running
  resetStack 0
  resetStack 1
  resetStack 2
  resetStack 3

/-- Reset (R210, R211): every piece of state at its reset value; `mem` and the parameters stay. No write of it can fault. -/
def takeReset (s : State) : State :=
  match resetPhase s with
  | .ok _ t => t
  | .error _ t => t

/-- What the end of a step does after an execute phase that raised no fault. -/
inductive Advance where
  /-- The increment follows (R105). -/
  | increment
  /-- No increment: a taken jump with `JUMP_POST_INCREMENT` = false (43_jumps.md R165). -/
  | stay
  deriving DecidableEq, Repr

/-- The last lines of `Step` (R100): the increment, if the status is still RUNNING. -/
def finish : Advance → Action Unit
  | .stay => pure ()
  | .increment => do
    let status ← readState State.status
    if status = .running then incrementPc else pure ()

/-- An execute phase and the end of its step, from a state: a fault on the way is taken (R100, R11). -/
def settle (execute : Action Advance) (s : State) : Host.Outcome State Fault Refusal :=
  match (execute >>= finish) s with
  | .ok _ t => .next t
  | .error k t => .next (takeFault k t)

end Sys2Proof.Machine
end

