-- ==== Sys2Proof/Machine/Dispatcher.lean ====
section
/-! DEFINITION. HALT and NOP, the instructions of the dispatcher itself (40_dispatcher.md R106, R107). -/

namespace Sys2Proof.Machine

/-- The execute phase of HALT. With `HALT_INCREMENTS_PC` = true the increment and its check come first, and the
fault takes the place of the halt (R106; DESIGN CHOICE D5, log 7). -/
def haltPhase : Action Advance := do
  if ← readState (fun s => s.cfg.haltIncrementsPc) then incrementPc else pure ()
  writeStatus .halted
  pure .increment

/-- HALT (R106). The status it leaves keeps `finish` from incrementing. -/
def execHalt (s : State) : Host.Outcome State Fault Refusal := settle haltPhase s

/-- NOP, any undispatched byte (R107): nothing but the increment. -/
def execNop (_b : Byte) (s : State) : Host.Outcome State Fault Refusal := settle (pure .increment) s

end Sys2Proof.Machine
end

