-- ==== Sys2Proof/Machine/Operands.lean ====
section
/-! DEFINITION. The implicit operands (30_encoding.md R81): the operand size and stack selectors with their checks
(60_exceptions.md R182, R183), the byte assembly and the byte split (42_stack_transfer.md R142, R143), and the peeks of
the jumps (43_jumps.md R160, R164). -/

namespace Sys2Proof.Machine

/-- The legal operand sizes (10_state.md R24). -/
inductive OperandSize where
  | one
  | two
  | four
  deriving DecidableEq, Repr

/-- How many bytes an operand has. -/
def byteCount : OperandSize → Nat
  | .one => 1
  | .two => 2
  | .four => 4

/-- The operand size a value of `os` stands for, if it is legal. -/
def legalSize (v : Nat) : Option OperandSize :=
  if v = 1 then some .one
  else if v = 2 then some .two
  else if v = 4 then some .four
  else none

/-- The check of a size-sensitive instruction (R183). -/
def operandSize : Action OperandSize := do
  match legalSize (← readState State.os) with
  | some n => pure n
  | none => raise .invalidOperandSize

/-- The check of a stack request (R182). -/
def requestStack (v : Nat) : Action StackIndex :=
  if h : v < 4 then pure ⟨v, h⟩ else raise .invalidStackSelector

/-- The primary stack: `ps`, checked (R22, R182). -/
def primary : Action StackIndex := do requestStack (← readState State.ps)

/-- The secondary stack: `ss`, checked (R23, R182). -/
def secondary : Action StackIndex := do requestStack (← readState State.ss)

/-! ### Between bytes and `tmp` -/

/-- The popped bytes in significance order, least significant first (R142; `POP_FIRST_POPPED`, D7, log 9). -/
def significanceOrder (f : PopFirstPopped) (b : List Byte) : List Byte :=
  match f with
  | .leastSignificant => b
  | .mostSignificant => b.reverse

/-- Byte `k` of a list as a 32-bit value. -/
def lane (q : List Byte) (k : Nat) : Word := (q.getD k 0#8).setWidth 32

/-- The assembly of bytes in significance order. At four bytes `q[3]` fills two lanes and `q[2]` none (R142, U1). -/
def assembleOrdered (n : OperandSize) (q : List Byte) : Word :=
  match n with
  | .one => lane q 0
  | .two => lane q 0 ||| lane q 1 <<< 8
  | .four => lane q 0 ||| lane q 1 <<< 8 ||| lane q 3 <<< 16 ||| lane q 3 <<< 24

/-- `Assemble(n, b)` of R142, zero-extended to 32 bits. -/
def assemble (f : PopFirstPopped) (n : OperandSize) (b : List Byte) : Word :=
  assembleOrdered n (significanceOrder f b)

/-- What POP writes to `tmp`, from the old value and the assembled one (R144; `POP_MERGE`, D6, log 8). -/
def mergeTmp (m : PopMerge) (n : OperandSize) (old new : Word) : Word :=
  match m with
  | .zero => new
  | .keep => (old >>> (8 * byteCount n)) <<< (8 * byteCount n) ||| new

/-- `Split(n, v)` of R143: the low bytes, least significant first. -/
def split (n : OperandSize) (v : Word) : List Byte :=
  (List.range (byteCount n)).map (fun k => v.extractLsb' (8 * k) 8)

/-! ### Peeks -/

/-- `Peek(i, n)` (R160): pop and push back. -/
def peek (i : StackIndex) (n : Nat) : Action (List Byte) := do
  let b ← popN i n
  pushBack i b
  pure b

/-- The two peeks of JL and JE one after the other, primary first (R162). -/
def peekBoth (i j : StackIndex) (n : Nat) : Action (List Byte × List Byte) := do
  let p ← peek i n
  let q ← peek j n
  pure (p, q)

/-- The other reading of a peek of one stack twice: both operands are popped before either goes back (R164, D9). -/
def peekInterleaved (i : StackIndex) (n : Nat) : Action (List Byte × List Byte) := do
  let p ← popN i n
  let q ← popN i n
  pushBack i q
  pushBack i p
  pure (p, q)

/-- The operands of JL and JE. `PEEK_ALIAS` matters only when both selectors name one stack (R164, D9; log 11). -/
def peekOperands (i j : StackIndex) (n : Nat) : Action (List Byte × List Byte) := do
  match ← readState (fun s => s.cfg.peekAlias) with
  | .sequential => peekBoth i j n
  | .interleaved => if i = j then peekInterleaved i n else peekBoth i j n

end Sys2Proof.Machine
end

