-- ==== Sys2Proof/Machine/Flags.lean ====
section
/-! DEFINITION. The machine has no flags and no condition codes (10_state.md R28): JL and JE compare and decide within
one step and record nothing. This file holds the two decisions, and the write a taken jump makes (43_jumps.md R161 to
R165). -/

namespace Sys2Proof.Machine

/-- The number JL reads from popped bytes: the first-popped byte is the most significant (R162; DESIGN CHOICE D8,
log 10). -/
def operandValue (b : List Byte) : Nat := b.foldl (fun acc x => acc * 256 + x.toNat) 0

/-- JL's decision: strict, unsigned (R162). -/
def isLess (p q : List Byte) : Bool := decide (operandValue p < operandValue q)

/-- JE's decision: byte for byte (R163). -/
def isEqual (p q : List Byte) : Bool := p == q

/-- A taken jump: `pc <- tar`, and then the increment unless `JUMP_POST_INCREMENT` is false (R165; DESIGN CHOICE D4,
log 6). -/
def takeJump : Action Advance := do
  writePc (← readState (fun s => s.tar.toNat))
  if ← readState (fun s => s.cfg.jumpPostIncrement) then pure .increment else pure .stay

end Sys2Proof.Machine
end

