-- ==== Sys2Proof/Machine/Jumps.lean ====
section
/-! DEFINITION. JMP, JL and JE (43_jumps.md R161 to R163). -/

namespace Sys2Proof.Machine

/-- JMP (R161): it tests nothing. -/
def execJmp (s : State) : Host.Outcome State Fault Refusal := settle takeJump s

/-- The execute phase of a jump on a comparison (R162, R163): the checks, the two peeks, the decision. -/
def compareJump (taken : List Byte → List Byte → Bool) : Action Advance := do
  let n ← operandSize
  let i ← primary
  let j ← secondary
  let pq ← peekOperands i j (byteCount n)
  if taken pq.1 pq.2 then takeJump else pure .increment

/-- JL (R162). -/
def execJl (s : State) : Host.Outcome State Fault Refusal := settle (compareJump isLess) s

/-- JE (R163). -/
def execJe (s : State) : Host.Outcome State Fault Refusal := settle (compareJump isEqual) s

end Sys2Proof.Machine
end

