-- ==== Sys2Proof/Machine/Select.lean ====
section
/-! DEFINITION. The eleven select instructions (41_select.md R120 to R131): each writes one register with a constant,
reads no state and tests nothing. -/

namespace Sys2Proof.Machine

/-- A stack index as a selector value. -/
def selectorOf (i : StackIndex) : Nat := i.val

/-- The execute phase of a select of the primary stack: the index of the named stack (R120 to R123; `STACK_NAME`, D2,
log 4). -/
def selectPrimary (n : StackName) : Action Advance := do
  writePs (selectorOf (← readState (fun s => s.cfg.stackName.index n)))
  pure .increment

/-- The execute phase of a select of the secondary stack (R124 to R127). -/
def selectSecondary (n : StackName) : Action Advance := do
  writeSs (selectorOf (← readState (fun s => s.cfg.stackName.index n)))
  pure .increment

/-- The execute phase of a select of the operand size (R128 to R130). -/
def selectSize (v : Nat) : Action Advance := do
  writeOs v
  pure .increment

/-- PSA (R120). -/
def execPsa (s : State) : Host.Outcome State Fault Refusal := settle (selectPrimary .a) s

/-- PSB (R121). -/
def execPsb (s : State) : Host.Outcome State Fault Refusal := settle (selectPrimary .b) s

/-- PSC (R122). -/
def execPsc (s : State) : Host.Outcome State Fault Refusal := settle (selectPrimary .c) s

/-- PSD (R123). -/
def execPsd (s : State) : Host.Outcome State Fault Refusal := settle (selectPrimary .d) s

/-- SSA (R124). -/
def execSsa (s : State) : Host.Outcome State Fault Refusal := settle (selectSecondary .a) s

/-- SSB (R125). -/
def execSsb (s : State) : Host.Outcome State Fault Refusal := settle (selectSecondary .b) s

/-- SSC (R126). -/
def execSsc (s : State) : Host.Outcome State Fault Refusal := settle (selectSecondary .c) s

/-- SSD (R127). -/
def execSsd (s : State) : Host.Outcome State Fault Refusal := settle (selectSecondary .d) s

/-- OS1 (R128). -/
def execOs1 (s : State) : Host.Outcome State Fault Refusal := settle (selectSize 1) s

/-- OS2 (R129). -/
def execOs2 (s : State) : Host.Outcome State Fault Refusal := settle (selectSize 2) s

/-- OS4 (R130). -/
def execOs4 (s : State) : Host.Outcome State Fault Refusal := settle (selectSize 4) s

end Sys2Proof.Machine
end

