-- ==== Sys2Proof/Machine/StackTransfer.lean ====
section
/-! DEFINITION. POP, PUSH, DUP, SET and the literal-capture step (42_stack_transfer.md R144 to R148). In each the size
is tested before the selector, and both before any stack is touched (60_exceptions.md R188; DESIGN CHOICES D11, D12,
logs 13, 14). -/

namespace Sys2Proof.Machine

/-- The execute phase of POP (R144). -/
def popPhase : Action Advance := do
  let n ← operandSize
  let i ← primary
  let b ← popN i (byteCount n)
  let first ← readState (fun s => s.cfg.popFirstPopped)
  let merge ← readState (fun s => s.cfg.popMerge)
  let old ← readState State.tmp
  writeTmp (mergeTmp merge n old (assemble first n b))
  pure .increment

/-- POP (R144). -/
def execPop (s : State) : Host.Outcome State Fault Refusal := settle popPhase s

/-- The execute phase of PUSH (R145). -/
def pushPhase : Action Advance := do
  let n ← operandSize
  let i ← primary
  let v ← readState State.tmp
  pushAll i (split n v)
  pure .increment

/-- PUSH (R145). -/
def execPush (s : State) : Host.Outcome State Fault Refusal := settle pushPhase s

/-- The execute phase of DUP (R146). -/
def dupPhase : Action Advance := do
  let n ← operandSize
  let i ← primary
  let b ← popN i (byteCount n)
  pushBack i b
  pushBack i b
  pure .increment

/-- DUP (R146). -/
def execDup (s : State) : Host.Outcome State Fault Refusal := settle dupPhase s

/-- The execute phase of SET (R147): it tests `os` and no selector. -/
def setPhase : Action Advance := do
  let _ ← operandSize
  writeSc (← readState State.os)
  pure .increment

/-- SET (R147). -/
def execSet (s : State) : Host.Outcome State Fault Refusal := settle setPhase s

/-- The execute phase of a literal-capture step (R148): it tests the selector and not `os`. The decrement is on
naturals and never goes below 0 (10_state.md R27; log 24 for `sc` = 0, where no step runs it). -/
def litPhase (b : Byte) : Action Advance := do
  let i ← primary
  pushByte i b
  writeSc ((← readState State.sc) - 1)
  pure .increment

/-- LIT (R148). -/
def execLit (b : Byte) (s : State) : Host.Outcome State Fault Refusal := settle (litPhase b) s

end Sys2Proof.Machine
end

