-- ==== Sys2Proof/Machine/Dispatch.lean ====
section
/-! DEFINITION. The arms of the dispatcher (40_dispatcher.md R103; 30_encoding.md R82): one meaning for each
instruction, each with the end of its step (R105). -/

namespace Sys2Proof.Machine

def exec (i : Instr) (s : State) : Host.Outcome State Fault Refusal :=
  match i with
  | .os1 => Sys2Proof.Machine.execOs1 s
  | .os2 => Sys2Proof.Machine.execOs2 s
  | .os4 => Sys2Proof.Machine.execOs4 s
  | .psa => Sys2Proof.Machine.execPsa s
  | .psb => Sys2Proof.Machine.execPsb s
  | .psc => Sys2Proof.Machine.execPsc s
  | .psd => Sys2Proof.Machine.execPsd s
  | .ssa => Sys2Proof.Machine.execSsa s
  | .ssb => Sys2Proof.Machine.execSsb s
  | .ssc => Sys2Proof.Machine.execSsc s
  | .ssd => Sys2Proof.Machine.execSsd s
  | .pop => Sys2Proof.Machine.execPop s
  | .push => Sys2Proof.Machine.execPush s
  | .dup => Sys2Proof.Machine.execDup s
  | .set => Sys2Proof.Machine.execSet s
  | .jmp => Sys2Proof.Machine.execJmp s
  | .jl => Sys2Proof.Machine.execJl s
  | .je => Sys2Proof.Machine.execJe s
  | .halt => Sys2Proof.Machine.execHalt s
  | .nop b => Sys2Proof.Machine.execNop b s
  | .lit b => Sys2Proof.Machine.execLit b s

end Sys2Proof.Machine
end

