-- ==== Sys2Proof/Machine/Step.lean ====
section
/-! DEFINITION. One step (40_dispatcher.md R100, R108), and the placing of an instruction where the next step fetches. -/

namespace Sys2Proof.Machine

/-- `Step` (R100): a terminal state has none (R108); a fetch outside `mem` is a fault (R102); else the fetched byte,
decoded under `sc`, is executed. The increment is the end of each meaning. -/
def step (s : State) : Host.Outcome State Fault Refusal :=
  match s.status with
  | .halted => .fault .halted
  | .faulted k => .fault (.faulted k)
  | .running =>
    match fetch s with
    | .error k => .next (takeFault k s)
    | .ok b => exec (decode s.cfg.opcodeMap s.sc b) s

/-- The state in which the next step fetches the opcode-table word `w` as an opcode: the byte stands at `pc` (at address
0 if `pc` is outside `mem`), the status is RUNNING and the mode is decode mode. It stands for the host's load of a
program (70_reset_and_hazards.md R213, R215; log 23). -/
def State.withFetchWord (s : State) (_nbits w : Nat) : State :=
  let pc := if s.pc < 1024 then s.pc else 0
  { s with pc := pc, sc := 0, status := .running, mem := Memory.write s.mem pc (BitVec.ofNat 8 w) }

end Sys2Proof.Machine
end

