-- ==== Sys2Proof/Machine/HostInterface.lean ====
section
/-! DEFINITION. The boundary of the block: ports (10_state.md R40 to R44), events, startup dump, report and exit status
(60_exceptions.md R200 to R204), load, reset and boot (70_reset_and_hazards.md R210 to R215). Outputs are no state (R36):
they are functions of the state and, for the ports of a step, of the reset input. Port names and widths are the spec's own
(DESIGN CHOICE D15, log 17). Where the spec gives a port no value, the port answers none: the model fixes nothing there
(DESIGN CHOICE of the model, log 27). -/

namespace Sys2Proof.Machine

/-! ### CORE under its reset input (R41) -/

/-- CORE with the level at which the host holds its reset input (R41). The level is an input and no state of CORE (R20, R36):
it is here so that the host can hold reset while it fills `mem` (R215), and because no step fetches or emits an event then
(R41; DESIGN CHOICE D20, log 22). -/
structure Block where
  core : State
  /-- The input `rst`: true while the host holds reset asserted. -/
  rst : Bool
  deriving DecidableEq, Repr

/-! ### Status port (R43) and exit status (R204) -/

/-- `run_state`: 0 RUNNING, 1 HALTED, 2 FAULTED. -/
def runStatePort (s : State) : BitVec 2 :=
  match s.status with
  | .running => 0#2
  | .halted => 1#2
  | .faulted _ => 2#2

/-- `fault_kind`: 0 unless FAULTED, else the fault's code (R181). -/
def faultKindPort (s : State) : BitVec 3 :=
  match s.status with
  | .running | .halted => 0#3
  | .faulted k => s.cfg.faultCode.code k

/-- `exit_status`: 0 when HALTED, the fault's code when FAULTED, none while RUNNING, when it is not meaningful (R204). -/
def exitStatus (s : State) : Option Byte :=
  match s.status with
  | .running => none
  | .halted => some 0#8
  | .faulted k => some ((s.cfg.faultCode.code k).setWidth 8)

/-! ### Program memory port (R42) -/

/-- Whether a step fetches: reset is released, the machine runs, and `pc` lies inside `mem` (40_dispatcher.md R100, R102). -/
def fetches (b : Block) : Bool := decide (b.rst = false ∧ b.core.status = .running ∧ b.core.pc < 1024)

/-- `imem_addr`: `pc[9:0]` of the step's fetch. R42 gives no value where nothing is fetched: with reset held, in a halted or
faulted state, with `pc` at 1024 or above; none there (DESIGN CHOICE of the model, log 27). -/
def imemAddrPort (b : Block) : Option (BitVec 10) :=
  if fetches b then some (BitVec.ofNat 10 b.core.pc) else none

/-- `imem_data`: the byte the memory behind the port drives for that address; none where there is none (DESIGN CHOICE of the
model, log 27). -/
def imemDataPort (b : Block) : Option Byte := (imemAddrPort b).map (fun a => Memory.read b.core.mem a.toNat)

/-! ### Events (R201, R44) -/

/-- One event of the trace. The event of a NOP is the spec's DESIGN CHOICE D17 (U9, log 19). -/
inductive Event where
  | decoded (i : Instr)
  | literal (b : Byte)
  deriving DecidableEq, Repr

/-- The event the step from this state emits: at the fetch, before the execute phase, so that an instruction that
faults or halts is traced too. A terminal state takes no step and a fetch fault reads no byte: no event. -/
def eventOf (s : State) : Option Event :=
  match s.status with
  | .halted | .faulted _ => none
  | .running =>
    match fetch s with
    | .error _ => none
    | .ok b =>
      match modeOf s.sc with
      | .literal => some (.literal b)
      | .decode => some (.decoded (decodeOpcode s.cfg.opcodeMap b))

/-- The event CORE emits under the level the host holds: none while reset is held, since no step is taken (R41, R211). -/
def Block.event (b : Block) : Option Event := if b.rst then none else eventOf b.core

/-- `ev_valid`: 0 while reset is held, too. -/
def evValidPort (b : Block) : Bool := b.event.isSome

/-- The kind of an event on the port: 0 for a decoded instruction, 1 for a literal byte. -/
def Event.kind : Event → BitVec 1
  | .decoded _ => 0#1
  | .literal _ => 1#1

/-- `ev_kind`: the kind of the step's event. R44 gives no value while `ev_valid` is 0; none there (DESIGN CHOICE of the model,
log 27). -/
def evKindPort (b : Block) : Option (BitVec 1) := b.event.map Event.kind

/-- `ev_byte`: the fetched byte. R44 gives no value while `ev_valid` is 0; none there (DESIGN CHOICE of the model, log 27). -/
def evBytePort (b : Block) : Option Byte :=
  if evValidPort b then (fetch b.core).toOption else none

/-- The event stream of at most `k` steps, in the order of the steps. -/
def eventStream : Nat → State → List Event
  | 0, _ => []
  | k + 1, s =>
    match step s with
    | .next t => (eventOf s).toList ++ eventStream k t
    | .fault _ => []
    | .refused _ => []

/-! ### Report port (R44), final report (R203), startup dump (R202) -/

/-- Whether the run has ended: the report is meaningful then only. -/
def isTerminal (s : State) : Bool := decide (s.status ≠ .running)

/-- The stack a value of `rep_sel` names. -/
def reportStack (s : State) (sel : BitVec 2) : ByteStack := s.stk.get ⟨sel.toNat, sel.isLt⟩

/-- `rep_data`: any byte of any stack, stale ones too; none while RUNNING. -/
def repDataPort (s : State) (sel : BitVec 2) (idx : BitVec 10) : Option Byte :=
  if isTerminal s then some (Memory.read (reportStack s sel).data idx.toNat) else none

/-- `rep_size`; none while RUNNING. -/
def repSizePort (s : State) (sel : BitVec 2) : Option (BitVec 11) :=
  if isTerminal s then some (BitVec.ofNat 11 (reportStack s sel).size.val) else none

/-- The line of the report for one stack: its first 16 bytes (`REPORT_BYTES`), whatever its size. -/
def reportLine (s : State) (n : StackName) : StackName × List Byte :=
  (n, (List.range 16).map (Memory.read (s.stk.get (s.cfg.stackName.index n)).data))

/-- The final report: four lines in the order A, B, C, D (DESIGN CHOICE D2, log 4); none while RUNNING. -/
def finalReport (s : State) : Option (List (StackName × List Byte)) :=
  if isTerminal s then some ([.a, .b, .c, .d].map (reportLine s)) else none

/-- The startup dump as data: the 1024 bytes of `mem`, 16 to a line. -/
def startupDump (s : State) : List (List Byte) :=
  (List.range 64).map (fun r => (List.range 16).map (fun c => Memory.read s.mem (16 * r + c)))

/-! ### What the host does (R200, R211 to R215) -/

/-- The state at the release of reset, with a file's bytes loaded (R213, R215). -/
def boot (cfg : Config) (file : List Byte) : State :=
  { State.reset with mem := loadImage file, cfg := cfg }

/-- Before the run (R200): CORE holds the reset state, no file is loaded, and reset is not yet released. -/
def powerOn (cfg : Config) : Block := ⟨boot cfg [], true⟩

/-- The moves of the host (R200). -/
inductive HostAction where
  /-- Assert reset and hold it over a clock edge (R211): allowed at any time. A shorter pulse has no effect (R41, log 22). -/
  | assertReset
  /-- Release reset (R211). -/
  | releaseReset
  /-- Fill `mem` with a file's bytes (R213). -/
  | load (file : List Byte)
  /-- Read the report (R203). -/
  | readReport
  deriving DecidableEq, Repr

/-- Whether the host may fill `mem`: before the release of reset (R213) or once the run has ended (R42, R200). -/
def mayLoad (b : Block) : Bool := b.rst || isTerminal b.core

/-- What a move of the host does. Loading `mem` during a run and reading the report while RUNNING are refused by name: the
spec gives neither a meaning (R200, U15; log 26). -/
def hostAct (a : HostAction) (b : Block) : Host.Outcome Block Fault Refusal :=
  match a with
  | .assertReset => .next ⟨takeReset b.core, true⟩
  | .releaseReset => .next { b with rst := false }
  | .load file =>
    if mayLoad b then .next { b with core := { b.core with mem := loadImage file } } else .refused .loadWhileRunning
  | .readReport => if isTerminal b.core then .next b else .refused .reportWhileRunning

/-- A sequence of the host's moves, with no step between them; it stops at the first that is refused. -/
def hostActs : List HostAction → Block → Host.Outcome Block Fault Refusal
  | [], b => .next b
  | a :: rest, b =>
    match hostAct a b with
    | .next c => hostActs rest c
    | .fault k => .fault k
    | .refused r => .refused r

/-- The machine with its reset input (R41, DESIGN CHOICE D20, log 22): while `rst` is asserted the state is the reset
state and no step is taken; else one step. How many clock cycles a step takes is not modelled (D16, log 18). -/
def stepOrReset (rst : Bool) (s : State) : Host.Outcome State Fault Refusal :=
  if rst then .next (takeReset s) else step s

/-- CORE goes on under the level the host holds (R211): a step once reset is released, the reset state while it is held. -/
def Block.clock (b : Block) : Host.Outcome Block Fault Refusal :=
  match stepOrReset b.rst b.core with
  | .next t => .next { b with core := t }
  | .fault k => .fault k
  | .refused r => .refused r

end Sys2Proof.Machine
end

