-- ==== Sys2Proof/Safety.lean ====
section
/-! DEFINITION. The terms claims about moribund CORE use: the invariants of a run (10_state.md R35; the canonical form of
the memories), how a step ends (40_dispatcher.md R105), the bytes of an operand (20_memory.md R56, R61), and the parts of
a state that programs can tell apart (10_state.md R32). -/

namespace Sys2Proof.Machine

/-- All five memories are in canonical form: an invariant of the model's data. -/
def State.Canonical (s : State) : Prop :=
  Memory.wf s.mem ∧ ∀ i, Memory.wf (s.stk.get i).data

/-- The invariants of a run from reset (R35): `pc` inside `mem`, legal selectors and size, `sc` at most 4, `tar` = 0. That a
stack's size is at most 1024 is the type of `size`. -/
def State.Legal (s : State) : Prop :=
  s.pc ≤ 1023 ∧ s.ps < 4 ∧ s.ss < 4 ∧ (s.os = 1 ∨ s.os = 2 ∨ s.os = 4) ∧ s.sc ≤ 4 ∧ s.tar = 0#16

/-- Every register holds a value of its width (R21 to R24, R27, R31; `PC_BITS`, `SEL_BITS`, `OS_BITS`, `SC_BITS`, `SIZE_BITS`,
D3): a state that the machine's registers can be in. -/
def State.Fits (s : State) : Prop :=
  s.pc < 2 ^ s.cfg.widths.pcBits ∧ s.ps < 2 ^ s.cfg.widths.selBits ∧ s.ss < 2 ^ s.cfg.widths.selBits ∧
    s.os < 2 ^ s.cfg.widths.osBits ∧ s.sc < 2 ^ s.cfg.widths.scBits ∧
    ∀ i, (s.stk.get i).size.val < 2 ^ s.cfg.widths.sizeBits

/-- A state of a run from reset: the program and the parameters of `boot`, and then steps (R109). -/
inductive State.Reachable : State → Prop where
  | boot (cfg : Config) (file : List Byte) : State.Reachable (boot cfg file)
  | step {s t : State} : State.Reachable s → step s = .next t → State.Reachable t

/-- How a step ends whose execute phase left the state `e` running (R105): `pc + 1` if that is below 1024, else the fault,
with `pc` as it was. -/
def EndsAfter (o : Host.Outcome State Fault Refusal) (e : State) : Prop :=
  (e.pc < 1023 → o = .next { e with pc := e.pc + 1 }) ∧
  (1023 ≤ e.pc → o = .next { e with status := .faulted .programCounterOutOfBounds })

/-- How the step of a taken jump ends (43_jumps.md R165): `pc` is `tar`, and the increment follows unless
`JUMP_POST_INCREMENT` is false. -/
def EndsInJump (o : Host.Outcome State Fault Refusal) (s : State) : Prop :=
  (s.cfg.jumpPostIncrement = true → EndsAfter o { s with pc := s.tar.toNat }) ∧
  (s.cfg.jumpPostIncrement = false → o = .next { s with pc := s.tar.toNat })

/-- The byte at depth `k` of a stack: 0 is the top. -/
def ByteStack.topByte (st : ByteStack) (k : Nat) : Byte := Memory.read st.data (st.size.val - 1 - k)

/-- The stack with its `n` top bytes taken off; they stay in `data` as stale bytes. -/
def ByteStack.drop (st : ByteStack) (n : Nat) : ByteStack := ⟨st.data, ⟨st.size.val - n, by omega⟩⟩

/-- The number JL reads in the `n` bytes from depth `d` down, the byte nearest the top as the most significant (R162). -/
def ByteStack.numberAt (st : ByteStack) (d n : Nat) : Nat :=
  ((List.range n).map (fun k => (st.topByte (d + k)).toNat * 256 ^ (n - 1 - k))).sum

/-- The stack `new` is `old` with the bytes `bs` pushed, first the head: every other byte of `data` is as before. -/
def ByteStack.PushedOnto (new old : ByteStack) (bs : List Byte) : Prop :=
  new.size.val = old.size.val + bs.length ∧
  (∀ k, k < bs.length → Memory.read new.data (old.size.val + k) = bs.getD k 0#8) ∧
  ∀ a, a < old.size.val ∨ old.size.val + bs.length ≤ a → Memory.read new.data a = Memory.read old.data a

/-- `os` holds the legal operand size `n` (R24). -/
def State.SizeIs (s : State) (n : Nat) : Prop := (n = 1 ∨ n = 2 ∨ n = 4) ∧ s.os = n

/-- `os` holds no legal operand size (R24). -/
def State.SizeIllegal (s : State) : Prop := s.os ≠ 1 ∧ s.os ≠ 2 ∧ s.os ≠ 4

/-- `ps` selects stack `i` (R22). -/
def State.PrimaryIs (s : State) (i : StackIndex) : Prop := s.ps = i.val

/-- `ss` selects stack `i` (R23). -/
def State.SecondaryIs (s : State) (i : StackIndex) : Prop := s.ss = i.val

/-- Byte `k` of a 32-bit value, 0 the least significant, as a 32-bit value. -/
def wordByte (v : Word) (k : Nat) : Word := (v >>> (8 * k)) &&& 0xFF#32

/-- The top `n` bytes of a stack, the deepest first. -/
def ByteStack.operandBytes (st : ByteStack) (n : Nat) : List Byte :=
  (List.range n).map (fun k => st.topByte (n - 1 - k))

/-- What POP leaves in `tmp` (R142, R144), from the bytes on the stack: `q k` is the byte of significance `k`, taken
from the top down, or from the deepest up when the first byte popped is the most significant; at four bytes `q 3` fills
two lanes and `q 2` none; above the assembled value come zeros, or the old bits of `tmp` when they are kept. -/
def popResult (c : Config) (n : Nat) (st : ByteStack) (old : Word) : Word :=
  let q := fun k : Nat =>
    (st.topByte (if c.popFirstPopped = .leastSignificant then k else n - 1 - k)).setWidth 32
  let v :=
    if n = 1 then q 0
    else if n = 2 then q 0 ||| q 1 <<< 8
    else q 0 ||| q 1 <<< 8 ||| q 3 <<< 16 ||| q 3 <<< 24
  if c.popMerge = .zero then v else (old >>> (8 * n)) <<< (8 * n) ||| v

/-- Two stacks with the same valid bytes; stale bytes may differ (R32). -/
def ByteStack.SameValid (x y : ByteStack) : Prop :=
  x.size = y.size ∧ ∀ k, k < x.size.val → Memory.read x.data k = Memory.read y.data k

/-- Two states no program can tell apart: they differ in stale bytes only (R32). -/
def State.SameButStale (s t : State) : Prop :=
  (∀ i, (s.stk.get i).SameValid (t.stk.get i)) ∧ t = { s with stk := t.stk }

/-- The faults each instruction can raise: the table of 60_exceptions.md section 1. -/
def mayRaise : Instr → List FaultKind
  | .halt => []
  | .nop _ | .psa | .psb | .psc | .psd | .ssa | .ssb | .ssc | .ssd | .os1 | .os2 | .os4 | .jmp =>
    [.programCounterOutOfBounds]
  | .pop | .jl | .je =>
    [.stackUnderflow, .invalidStackSelector, .invalidOperandSize, .programCounterOutOfBounds]
  | .push => [.stackOverflow, .invalidStackSelector, .invalidOperandSize, .programCounterOutOfBounds]
  | .dup => [.stackOverflow, .stackUnderflow, .invalidStackSelector, .invalidOperandSize, .programCounterOutOfBounds]
  | .set => [.invalidOperandSize, .programCounterOutOfBounds]
  | .lit _ => [.stackOverflow, .invalidStackSelector, .programCounterOutOfBounds]

end Sys2Proof.Machine
end

