-- ==== Sys2Proof/Certificates/Slice0/Obligations.lean ====
section
/-! DEFINITION. What is claimed of the model of moribund CORE, as statements for the provers. Each docstring names the
rules of spec/ it formalises, and the model's or the spec's own choices it rests on. -/

open Sys2Proof Sys2Proof.Machine

/-! ### Encoding -/

/-- Decode of encode: every well-formed instruction is read back from its byte, in its mode, whatever follows it, under
every opcode map with distinct values (R80, R82). -/
def Obligations.DecodeOfEncodeIsTheInstruction : Prop :=
  ∀ (m : OpcodeMap) (i : Instr) (sc : Nat) (rest : List Byte), m.distinct = true → i.wf m = true →
    modeOf sc = i.mode →
    decode m sc (encode m i) = i ∧ decodeBytes m sc (encodeBytes m i ++ rest) = .ok (i, rest)

/-- Every byte has exactly one reading in either mode (R82): a literal while `sc > 0`, else the opcode whose value it is,
else NOP. -/
def Obligations.EveryByteHasOneReading : Prop :=
  ∀ (m : OpcodeMap) (sc : Nat) (b : Byte),
    (0 < sc → decode m sc b = .lit b) ∧
    (sc = 0 → m.distinct = true → ∀ r ∈ m.rows, r.2 = b → decode m sc b = r.1) ∧
    (sc = 0 → b ∉ m.rows.map Prod.snd → decode m sc b = .nop b)

/-- The bytes of the default opcode map decode as the grid of 30_encoding.md section 2 shows, 237 bytes are NOPs and in
literal-capture mode none is an opcode. The values of all opcodes but OS1, PSA, POP, SET and HALT are the spec's own choice
(D1, log 3). -/
def Obligations.DefaultOpcodeGrid : Prop :=
  defaultOpcodeMap.wf = true ∧
  [0x01, 0x02, 0x04, 0x1A, 0x1B, 0x1C, 0x1D, 0x2A, 0x2B, 0x2C, 0x2D, 0x50, 0x51, 0x52, 0x5E, 0x60, 0x61, 0x62, 0xFF].map
      (fun b => decode defaultOpcodeMap 0 b) =
    [.os1, .os2, .os4, .psa, .psb, .psc, .psd, .ssa, .ssb, .ssc, .ssd, .pop, .push, .dup, .set, .jmp, .jl, .je, .halt] ∧
  (List.range 256).countP (fun b => decide (decode defaultOpcodeMap 0 (BitVec.ofNat 8 b) = .nop (BitVec.ofNat 8 b))) = 237 ∧
  decode defaultOpcodeMap 1 0xFF#8 = .lit 0xFF#8

/-! ### The step -/

/-- A step runs the decoded instruction (40_dispatcher.md section 1): the byte at `pc`, read as a literal while `sc > 0` and as an
opcode else, is executed, and `exec` is the whole of the step, its increment included. -/
def Obligations.StepRunsTheDecodedInstruction : Prop :=
  ∀ (s : State) (i : Instr), s.status = .running → s.pc < 1024 →
    decodeBytes s.cfg.opcodeMap s.sc [Memory.read s.mem s.pc] = .ok (i, []) →
    step s = exec i s ∧
    (0 < s.sc → step s = exec (.lit (Memory.read s.mem s.pc)) s)

/-- A step begun with `pc` outside `mem` raises ProgramCounterOutOfBounds and writes nothing else. The spec's own choice
(D13, log 15). -/
def Obligations.FetchOutsideMemoryFaults : Prop :=
  ∀ s : State, s.status = .running → 1024 ≤ s.pc →
    step s = .next { s with status := .faulted .programCounterOutOfBounds }

/-- A terminal state has no step, and nothing outside the machine ends a run short of reset (40_dispatcher.md section 1). That
the stop is a fault of `step` that names the status is the model's reading (log 2), and that the host's load and
its read of the report are refused during a run is its choice (D15, U15; log 26). -/
def Obligations.TerminalStatesHaveNoStep : Prop :=
  ∀ s : State,
    (s.status = .halted → step s = .fault .halted) ∧
    (∀ k, s.status = .faulted k → step s = .fault (.faulted k)) ∧
    (s.status = .running → ∀ a b, hostAct a ⟨s, false⟩ = .next b → b = ⟨s, false⟩ ∨ a = .assertReset)

/-- The increment never wraps: executed with `pc` outside `mem`, which no fetch allows, any instruction that neither halts nor
jumps ends in a fault, at `pc` = 65535 as well. The spec's own choice (D13, log 15). -/
def Obligations.IncrementDoesNotWrap : Prop :=
  ∀ (i : Instr) (s t : State), s.status = .running → 1024 ≤ s.pc → i ∉ [Instr.halt, .jmp, .jl, .je] →
    exec i s = .next t → t.pc = s.pc ∧ ∃ k, t.status = .faulted k

/-- Every running state has a next state: no stop, no refusal (40_dispatcher.md section 1, determinism and totality). -/
def Obligations.RunningStateHasANextState : Prop :=
  ∀ s : State, s.status = .running → ∃ t, step s = .next t

/-- A byte fetched in decode mode that is none of the 19 opcodes only advances `pc`, or faults at the end of `mem` (R107). -/
def Obligations.UndispatchedByteOnlyAdvances : Prop :=
  ∀ s : State, s.status = .running → s.pc < 1024 →
    (∀ b, EndsAfter (exec (.nop b) s) s) ∧
    (s.sc = 0 → Memory.read s.mem s.pc ∉ s.cfg.opcodeMap.rows.map Prod.snd →
      EndsAfter (step s) s)

/-! ### The instructions -/

/-- HALT (40_dispatcher.md section 2): the status, and nothing else; with `HALT_INCREMENTS_PC` = true the increment and its
check come first. Which of the two HALT does is the spec's own choice (D5, log 7). -/
def Obligations.HaltEndsTheRun : Prop :=
  ∀ s : State,
    (s.cfg.haltIncrementsPc = false → exec .halt s = .next { s with status := .halted }) ∧
    (s.cfg.haltIncrementsPc = true → s.pc < 1023 →
      exec .halt s = .next { s with pc := s.pc + 1, status := .halted }) ∧
    (s.cfg.haltIncrementsPc = true → 1023 ≤ s.pc →
      exec .halt s = .next { s with status := .faulted .programCounterOutOfBounds })

/-- PSA, PSB, PSC, PSD (R120 to R123), with the stack names A=0, B=1, C=2, D=3: one constant into `ps`, whatever any register
holds. -/
def Obligations.SelectPrimaryWritesPs : Prop :=
  ∀ s : State, s.status = .running → s.pc < 1024 → s.cfg.stackName = ⟨0, 1, 2, 3⟩ →
    EndsAfter (exec .psa s) { s with ps := 0 } ∧ EndsAfter (exec .psb s) { s with ps := 1 } ∧
    EndsAfter (exec .psc s) { s with ps := 2 } ∧ EndsAfter (exec .psd s) { s with ps := 3 }

/-- SSA, SSB, SSC, SSD (R124 to R127), with the stack names A=0, B=1, C=2, D=3: one constant into `ss`. -/
def Obligations.SelectSecondaryWritesSs : Prop :=
  ∀ s : State, s.status = .running → s.pc < 1024 → s.cfg.stackName = ⟨0, 1, 2, 3⟩ →
    EndsAfter (exec .ssa s) { s with ss := 0 } ∧ EndsAfter (exec .ssb s) { s with ss := 1 } ∧
    EndsAfter (exec .ssc s) { s with ss := 2 } ∧ EndsAfter (exec .ssd s) { s with ss := 3 }

/-- The eight stack selects under any pairing of names and indices (41_select.md sections 1 and 2): the index of the stack
named, and nothing else. That the pairing is a parameter is the spec's own choice (D2, log 4). -/
def Obligations.SelectsWriteTheNamedStack : Prop :=
  ∀ s : State, s.status = .running →
    (∀ r ∈ [(Instr.psa, s.cfg.stackName.a), (.psb, s.cfg.stackName.b), (.psc, s.cfg.stackName.c), (.psd, s.cfg.stackName.d)],
      EndsAfter (exec r.1 s) { s with ps := r.2.val }) ∧
    ∀ r ∈ [(Instr.ssa, s.cfg.stackName.a), (.ssb, s.cfg.stackName.b), (.ssc, s.cfg.stackName.c), (.ssd, s.cfg.stackName.d)],
      EndsAfter (exec r.1 s) { s with ss := r.2.val }

/-- OS1, OS2, OS4 (R128 to R130): one constant into `os`. -/
def Obligations.SelectSizeWritesOs : Prop :=
  ∀ s : State, s.status = .running → s.pc < 1024 →
    EndsAfter (exec .os1 s) { s with os := 1 } ∧ EndsAfter (exec .os2 s) { s with os := 2 } ∧
    EndsAfter (exec .os4 s) { s with os := 4 }

/-- POP (42_stack_transfer.md section 2), on every path, under every value of `POP_FIRST_POPPED` and `POP_MERGE`: the size
check, the selector check, the underflow that leaves the stack empty and `tmp` as it was, and the effect. The order of the
checks, the partial state after a fault and the stale bytes are the spec's own choices (D10, D11, D12, D19; logs 12, 13,
14, 21). -/
def Obligations.PopMovesOperandToTmp : Prop :=
  ∀ s : State,
    (s.SizeIllegal → exec .pop s = .next { s with status := .faulted .invalidOperandSize }) ∧
    ∀ n, s.SizeIs n →
      (4 ≤ s.ps → exec .pop s = .next { s with status := .faulted .invalidStackSelector }) ∧
      ∀ i, s.PrimaryIs i →
        ((s.stk.get i).size.val < n →
          exec .pop s = .next
            { s with stk := s.stk.put i ⟨(s.stk.get i).data, 0⟩, status := .faulted .stackUnderflow }) ∧
        (s.status = .running → n ≤ (s.stk.get i).size.val →
          EndsAfter (exec .pop s)
            { s with stk := s.stk.put i ((s.stk.get i).drop n), tmp := popResult s.cfg n (s.stk.get i) s.tmp })

/-- PUSH (42_stack_transfer.md section 3), on every path: the checks, the effect with the least significant byte deepest, and
the overflow that leaves the bytes that fitted. The order of the checks and the partial state are the spec's own choices
(D10, D11, D12; logs 12, 13, 14). -/
def Obligations.PushMovesTmpToStack : Prop :=
  ∀ s : State,
    (s.SizeIllegal → exec .push s = .next { s with status := .faulted .invalidOperandSize }) ∧
    ∀ n, s.SizeIs n →
      (4 ≤ s.ps → exec .push s = .next { s with status := .faulted .invalidStackSelector }) ∧
      ∀ i, s.PrimaryIs i →
        (1024 < (s.stk.get i).size.val + n → ∃ st : ByteStack,
          st.PushedOnto (s.stk.get i)
            (((List.range n).map (fun k => s.tmp.extractLsb' (8 * k) 8)).take (1024 - (s.stk.get i).size.val)) ∧
          exec .push s = .next { s with stk := s.stk.put i st, status := .faulted .stackOverflow }) ∧
        (s.status = .running → (s.stk.get i).size.val + n ≤ 1024 → ∃ st : ByteStack,
          st.PushedOnto (s.stk.get i) ((List.range n).map (fun k => s.tmp.extractLsb' (8 * k) 8)) ∧
          EndsAfter (exec .push s) { s with stk := s.stk.put i st })

/-- DUP (42_stack_transfer.md section 4), on every path: the checks, the underflow that leaves the stack empty, the overflow
that leaves the bytes of the copy that fitted, and the effect. The order of the checks and the partial state are the spec's
own choices (D10, D11, D12; logs 12, 13, 14). -/
def Obligations.DupRepeatsTheOperand : Prop :=
  ∀ s : State,
    (s.SizeIllegal → exec .dup s = .next { s with status := .faulted .invalidOperandSize }) ∧
    ∀ n, s.SizeIs n →
      (4 ≤ s.ps → exec .dup s = .next { s with status := .faulted .invalidStackSelector }) ∧
      ∀ i, s.PrimaryIs i →
        ((s.stk.get i).size.val < n →
          exec .dup s = .next
            { s with stk := s.stk.put i ⟨(s.stk.get i).data, 0⟩, status := .faulted .stackUnderflow }) ∧
        (n ≤ (s.stk.get i).size.val → 1024 < (s.stk.get i).size.val + n → ∃ st : ByteStack,
          st.PushedOnto (s.stk.get i) (((s.stk.get i).operandBytes n).take (1024 - (s.stk.get i).size.val)) ∧
          exec .dup s = .next { s with stk := s.stk.put i st, status := .faulted .stackOverflow }) ∧
        (s.status = .running → n ≤ (s.stk.get i).size.val → (s.stk.get i).size.val + n ≤ 1024 → ∃ st : ByteStack,
          st.PushedOnto (s.stk.get i) ((s.stk.get i).operandBytes n) ∧
          EndsAfter (exec .dup s) { s with stk := s.stk.put i st })

/-- SET (42_stack_transfer.md section 5): `sc` takes the value of `os`. That SET tests `os` and no selector is the spec's own choice
(D12, log 14). -/
def Obligations.SetArmsLiteralCapture : Prop :=
  ∀ s : State,
    (s.SizeIllegal → exec .set s = .next { s with status := .faulted .invalidOperandSize }) ∧
    (∀ n, s.SizeIs n → s.status = .running → EndsAfter (exec .set s) { s with sc := s.os })

/-- The literal-capture step (42_stack_transfer.md section 5), on every path. That LIT tests `ps` and not `os` is the spec's own
choice (D12, log 14), and so is that `sc` is as before after an overflow (D10, log 12). -/
def Obligations.LiteralByteIsPushed : Prop :=
  ∀ (s : State) (b : Byte), 0 < s.sc → s.pc < 1024 →
    (4 ≤ s.ps → exec (.lit b) s = .next { s with status := .faulted .invalidStackSelector }) ∧
    ∀ i, s.PrimaryIs i →
      ((s.stk.get i).size.val = 1024 → exec (.lit b) s = .next { s with status := .faulted .stackOverflow }) ∧
      (s.status = .running → (s.stk.get i).size.val < 1024 → ∃ st : ByteStack,
        st.PushedOnto (s.stk.get i) [b] ∧
        EndsAfter (exec (.lit b) s) { s with stk := s.stk.put i st, sc := s.sc - 1 })

/-- JMP (43_jumps.md sections 2 and 5): `pc` is `tar`, whatever the stacks and the other registers hold, and the increment
follows unless `JUMP_POST_INCREMENT` is false. Where a taken jump lands is the spec's own choice (D4, log 6). -/
def Obligations.JmpGoesToTar : Prop :=
  ∀ s : State, s.status = .running → EndsInJump (exec .jmp s) s

/-- The checks and the underflows of JL and JE, in their order (43_jumps.md section 3): `os`, `ps`, `ss`, the primary
operand, the secondary operand; the stack that underflows is left empty and the other as it was. The order and the partial
state are the spec's own choices (D10, D11, D12, logs 12, 13, 14). -/
def Obligations.ComparisonFaults : Prop :=
  ∀ (s : State) (c : Instr), c = .jl ∨ c = .je → s.Canonical →
    (s.SizeIllegal → exec c s = .next { s with status := .faulted .invalidOperandSize }) ∧
    ∀ n, s.SizeIs n →
      (4 ≤ s.ps → exec c s = .next { s with status := .faulted .invalidStackSelector }) ∧
      ∀ i, s.PrimaryIs i →
        (4 ≤ s.ss → exec c s = .next { s with status := .faulted .invalidStackSelector }) ∧
        ∀ j, s.SecondaryIs j →
          ((s.stk.get i).size.val < n →
            exec c s = .next
              { s with stk := s.stk.put i ⟨(s.stk.get i).data, 0⟩, status := .faulted .stackUnderflow }) ∧
          (n ≤ (s.stk.get i).size.val → (s.stk.get j).size.val < n →
            exec c s = .next
              { s with stk := s.stk.put j ⟨(s.stk.get j).data, 0⟩, status := .faulted .stackUnderflow })

/-- JL (43_jumps.md section 3) with two stacks, or with one under the sequential peek: taken exactly when the primary
operand is the smaller number, the byte nearest the top as the most significant; no stack changes. That order of
significance is the spec's own choice (D8, log 10), as is the sequential peek (D9, log 11). -/
def Obligations.JlComparesNumbers : Prop :=
  ∀ (s : State) (n : Nat) (i j : StackIndex), s.status = .running → s.Canonical → s.SizeIs n → s.PrimaryIs i →
    s.SecondaryIs j → n ≤ (s.stk.get i).size.val → n ≤ (s.stk.get j).size.val →
    (i ≠ j ∨ s.cfg.peekAlias = .sequential) →
    ((s.stk.get i).numberAt 0 n < (s.stk.get j).numberAt 0 n → EndsInJump (exec .jl s) s) ∧
    (¬ (s.stk.get i).numberAt 0 n < (s.stk.get j).numberAt 0 n → EndsAfter (exec .jl s) s)

/-- JE (43_jumps.md section 4) with two stacks, or with one under the sequential peek: taken exactly when the operands agree
byte for byte; no stack changes. The sequential peek is the spec's own choice (D9, log 11). -/
def Obligations.JeComparesBytes : Prop :=
  ∀ (s : State) (n : Nat) (i j : StackIndex), s.status = .running → s.Canonical → s.SizeIs n → s.PrimaryIs i →
    s.SecondaryIs j → n ≤ (s.stk.get i).size.val → n ≤ (s.stk.get j).size.val →
    (i ≠ j ∨ s.cfg.peekAlias = .sequential) →
    ((∀ k, k < n → (s.stk.get i).topByte k = (s.stk.get j).topByte k) → EndsInJump (exec .je s) s) ∧
    (¬ (∀ k, k < n → (s.stk.get i).topByte k = (s.stk.get j).topByte k) → EndsAfter (exec .je s) s)

/-- JL and JE when `ps` and `ss` select one stack (43_jumps.md section 5): under the sequential peek JE is taken and JL is
not; under the interleaved one the top operand is compared with the one beneath it, and both must be there. Both readings
are the spec's own choice (D9, log 11), and so is that an underflow leaves the stack empty (D10, log 12; 43_jumps.md
section 1). -/
def Obligations.ComparisonOnOneStack : Prop :=
  ∀ (s : State) (n : Nat) (i : StackIndex), s.status = .running → s.Canonical → s.SizeIs n → s.PrimaryIs i →
    s.SecondaryIs i →
    (s.cfg.peekAlias = .sequential → n ≤ (s.stk.get i).size.val →
      EndsInJump (exec .je s) s ∧ EndsAfter (exec .jl s) s) ∧
    (s.cfg.peekAlias = .interleaved → 2 * n ≤ (s.stk.get i).size.val →
      ((s.stk.get i).numberAt 0 n < (s.stk.get i).numberAt n n → EndsInJump (exec .jl s) s) ∧
      (¬ (s.stk.get i).numberAt 0 n < (s.stk.get i).numberAt n n → EndsAfter (exec .jl s) s) ∧
      ((∀ k, k < n → (s.stk.get i).topByte k = (s.stk.get i).topByte (n + k)) → EndsInJump (exec .je s) s) ∧
      (¬ (∀ k, k < n → (s.stk.get i).topByte k = (s.stk.get i).topByte (n + k)) → EndsAfter (exec .je s) s)) ∧
    (s.cfg.peekAlias = .interleaved → (s.stk.get i).size.val < 2 * n → ∀ c, c = .jl ∨ c = .je →
      exec c s = .next
        { s with stk := s.stk.put i ⟨(s.stk.get i).data, 0⟩, status := .faulted .stackUnderflow })

/-! ### The primitives and the laws of operands -/

/-- `Push` (R52). -/
def Obligations.PushPrimitive : Prop :=
  ∀ (s : State) (i : StackIndex) (b : Byte),
    ((s.stk.get i).size.val < 1024 → ∃ st : ByteStack,
      st.PushedOnto (s.stk.get i) [b] ∧ pushByte i b s = .ok () { s with stk := s.stk.put i st }) ∧
    ((s.stk.get i).size.val = 1024 → pushByte i b s = .error .stackOverflow s)

/-- `Pop` (20_memory.md section 2): the top byte is returned, `size` falls by one and no byte of `data` changes. That it
stays as a stale byte is the spec's own choice (D19, log 21). -/
def Obligations.PopPrimitive : Prop :=
  ∀ (s : State) (i : StackIndex),
    (0 < (s.stk.get i).size.val → ∃ st : ByteStack,
      st.data = (s.stk.get i).data ∧ st.size.val + 1 = (s.stk.get i).size.val ∧
      popByte i s = .ok (Memory.read (s.stk.get i).data ((s.stk.get i).size.val - 1)) { s with stk := s.stk.put i st }) ∧
    ((s.stk.get i).size.val = 0 → popByte i s = .error .stackUnderflow s)

/-- `Reset` of one stack (20_memory.md section 2): that stack is all zero with size 0, and nothing else changes. -/
def Obligations.ResetPrimitive : Prop :=
  ∀ (s : State) (i : StackIndex), ∃ t, resetStack i s = .ok () t ∧ (t.stk.get i).size = 0 ∧
    (∀ k, Memory.read (t.stk.get i).data k = 0#8) ∧ (∀ j, j ≠ i → t.stk.get j = s.stk.get j) ∧ t = { s with stk := t.stk }

/-- The LIFO law (20_memory.md section 2): the pops give the pushed bytes back last first, the valid bytes are as before, and
nothing else changes. -/
def Obligations.PopsReturnPushesReversed : Prop :=
  ∀ (s : State) (i : StackIndex) (bs : List Byte), (s.stk.get i).size.val + bs.length ≤ 1024 →
    ∃ t u : State, pushAll i bs s = .ok () t ∧ popN i bs.length t = .ok bs.reverse u ∧
      (u.stk.get i).SameValid (s.stk.get i) ∧ (∀ j, j ≠ i → u.stk.get j = s.stk.get j) ∧ u = { s with stk := u.stk }

/-- `Peek` (43_jumps.md section 1): the top bytes in pop order and the state as it was, or an underflow that leaves the stack
empty. That partial state is the spec's own choice (D10, log 12). -/
def Obligations.PeekLeavesTheStack : Prop :=
  ∀ (s : State) (i : StackIndex) (n : Nat), Memory.wf (s.stk.get i).data →
    (n ≤ (s.stk.get i).size.val → peek i n s = .ok ((List.range n).map (s.stk.get i).topByte) s) ∧
    ((s.stk.get i).size.val < n →
      peek i n s = .error .stackUnderflow { s with stk := s.stk.put i ⟨(s.stk.get i).data, 0⟩ })

/-- `Split` (R143). -/
def Obligations.SplitCutsLowBytes : Prop :=
  ∀ (z : OperandSize) (v : Word), (split z v).length = byteCount z ∧
    ∀ k, k < byteCount z → (split z v).getD k 0#8 = v.extractLsb' (8 * k) 8

/-- `Assemble` (R142): both values of `POP_FIRST_POPPED`, and the bound on the result. -/
def Obligations.AssembleOfPoppedBytes : Prop :=
  (∀ b0 : Byte, ∀ f, assemble f .one [b0] = b0.setWidth 32) ∧
  (∀ b0 b1 : Byte,
    assemble .leastSignificant .two [b0, b1] = b0.setWidth 32 ||| b1.setWidth 32 <<< 8 ∧
    assemble .mostSignificant .two [b0, b1] = b1.setWidth 32 ||| b0.setWidth 32 <<< 8) ∧
  (∀ b0 b1 b2 b3 : Byte,
    assemble .leastSignificant .four [b0, b1, b2, b3] =
      b0.setWidth 32 ||| b1.setWidth 32 <<< 8 ||| b3.setWidth 32 <<< 16 ||| b3.setWidth 32 <<< 24 ∧
    assemble .mostSignificant .four [b0, b1, b2, b3] =
      b3.setWidth 32 ||| b2.setWidth 32 <<< 8 ||| b0.setWidth 32 <<< 16 ||| b0.setWidth 32 <<< 24) ∧
  ∀ (f : PopFirstPopped) (z : OperandSize) (b : List Byte), (assemble f z b).toNat < 2 ^ (8 * byteCount z)

/-- What PUSH lays down, JL reads as the same number (20_memory.md section 3). JL's order of significance is the spec's
own choice (D8, log 10). -/
def Obligations.PushedValueIsTheNumberJlReads : Prop :=
  ∀ (s : State) (n : Nat) (i : StackIndex), s.status = .running → s.SizeIs n → s.PrimaryIs i →
    (s.stk.get i).size.val + n ≤ 1024 → s.pc < 1023 →
    ∃ t, exec .push s = .next t ∧ (t.stk.get i).numberAt 0 n = s.tmp.toNat % 256 ^ n

/-- JL's comparison is the lexicographic one, from the top down (43_jumps.md section 3; D8, log 10). -/
def Obligations.LessIsLexicographic : Prop :=
  ∀ p q : List Byte, p.length = q.length →
    (isLess p q = true ↔
      ∃ k, k < p.length ∧ (∀ j, j < k → p.getD j 0#8 = q.getD j 0#8) ∧ (p.getD k 0#8).toNat < (q.getD k 0#8).toNat)

/-- JE's test byte for byte is the equality of the numbers JL reads (43_jumps.md sections 4 and 6). -/
def Obligations.EqualBytesAreEqualNumbers : Prop :=
  ∀ p q : List Byte, p.length = q.length → (isEqual p q = true ↔ operandValue p = operandValue q)

/-- PUSH then POP, at every size and both values of `POP_FIRST_POPPED`, with `POP_MERGE` = zero (42_stack_transfer.md
section 6, law (a)): restored at 1 byte; swapped at 2 bytes, or restored when the first popped is the most significant; one
byte lost and one doubled at 4. The defaults are the spec's own choices (D6, D7, logs 8, 9; C2). -/
def Obligations.PushThenPop : Prop :=
  ∀ (s : State) (n : Nat) (i : StackIndex), s.status = .running → s.SizeIs n → s.PrimaryIs i →
    (s.stk.get i).size.val + n ≤ 1024 → s.pc < 1022 → s.cfg.popMerge = .zero →
    ∃ t u, exec .push s = .next t ∧ exec .pop t = .next u ∧ (u.stk.get i).SameValid (s.stk.get i) ∧
      (n = 1 → u.tmp = wordByte s.tmp 0) ∧
      (s.cfg.popFirstPopped = .leastSignificant →
        (n = 2 → u.tmp = wordByte s.tmp 0 <<< 8 ||| wordByte s.tmp 1) ∧
        (n = 4 → u.tmp =
          wordByte s.tmp 0 <<< 24 ||| wordByte s.tmp 0 <<< 16 ||| wordByte s.tmp 2 <<< 8 ||| wordByte s.tmp 3)) ∧
      (s.cfg.popFirstPopped = .mostSignificant →
        (n = 2 → u.tmp = wordByte s.tmp 1 <<< 8 ||| wordByte s.tmp 0) ∧
        (n = 4 → u.tmp =
          wordByte s.tmp 3 <<< 24 ||| wordByte s.tmp 3 <<< 16 ||| wordByte s.tmp 1 <<< 8 ||| wordByte s.tmp 0))

/-- POP then PUSH with the first popped byte as the least significant (42_stack_transfer.md section 6, law (b)): with
`b k` the byte that was at depth `k`, the top `n` bytes are afterwards, deepest first, `b 0`; `b 0, b 1`; or
`b 0, b 1, b 3, b 3`; the rest of the stack is as it was. The default order is the spec's own choice (D7, log 9). -/
def Obligations.PopThenPush : Prop :=
  ∀ (s : State) (n : Nat) (i : StackIndex), s.status = .running → s.SizeIs n → s.PrimaryIs i →
    n ≤ (s.stk.get i).size.val → s.pc < 1022 → s.cfg.popFirstPopped = .leastSignificant →
    ∃ t u, exec .pop s = .next t ∧ exec .push t = .next u ∧
      (u.stk.get i).PushedOnto ((s.stk.get i).drop n)
        (((if n = 4 then [0, 1, 3, 3] else List.range n) : List Nat).map (s.stk.get i).topByte)

/-- SET and its literals (R59): the `os` bytes after SET reach the primary stack in program order, undecoded, and nothing
else changes but `pc`. -/
def Obligations.LiteralRunKeepsProgramOrder : Prop :=
  ∀ (s : State) (n : Nat) (i : StackIndex), s.status = .running → s.sc = 0 → s.SizeIs n → s.PrimaryIs i →
    s.cfg.opcodeMap.distinct = true → s.pc + n < 1023 → Memory.read s.mem s.pc = s.cfg.opcodeMap.set →
    (s.stk.get i).size.val + n ≤ 1024 →
    ∃ st : ByteStack,
      st.PushedOnto (s.stk.get i) ((List.range n).map (fun k => Memory.read s.mem (s.pc + 1 + k))) ∧
      Host.Core.run Sys2Proof.core (n + 1) s =
        .next { s with stk := s.stk.put i st, pc := s.pc + n + 1 }

/-! ### The whole machine -/

/-- The invariants of a run hold at reset, with any program loaded and any parameters (10_state.md section 7). -/
def Obligations.LegalAtReset : Prop :=
  State.reset.Legal ∧ ∀ (cfg : Config) (file : List Byte), (boot cfg file).Legal

/-- Every step keeps the invariants of a run (10_state.md section 7), from every state that has them. -/
def Obligations.LegalKeptByStep : Prop :=
  ∀ s t : State, s.Legal → step s = .next t → t.Legal

/-- Every register holds a value of its width at reset, under every legal configuration (10_state.md sections 2 and 4). The
widths as parameters are the spec's own choice (D3, log 5). -/
def Obligations.FitsAtReset : Prop :=
  State.reset.Fits ∧ ∀ (cfg : Config) (file : List Byte), cfg.wf = true → (boot cfg file).Fits

/-- Every step keeps every register within its width, under every legal `PC_BITS`, `SEL_BITS`, `OS_BITS`, `SC_BITS` and
`SIZE_BITS`, from every state in which they fit: no write loses a bit (10_state.md sections 2 and 4; D3, log 5). -/
def Obligations.FitsKeptByStep : Prop :=
  ∀ s t : State, s.cfg.wf = true → s.Fits → step s = .next t → t.Fits

/-- From a state with the invariants, the fetch is inside `mem` and no step raises InvalidStackSelector or
InvalidOperandSize (10_state.md section 7). -/
def Obligations.LegalStateRaisesNoCheckFault : Prop :=
  ∀ s : State, s.Legal → s.status = .running →
    ∃ t, step s = .next t ∧ t.status ≠ .faulted .invalidStackSelector ∧ t.status ≠ .faulted .invalidOperandSize ∧
      step s = exec (decode s.cfg.opcodeMap s.sc (Memory.read s.mem s.pc)) s

/-- All five memories are in canonical form at reset, with any program loaded. -/
def Obligations.CanonicalAtReset : Prop :=
  State.reset.Canonical ∧ ∀ (cfg : Config) (file : List Byte), (boot cfg file).Canonical

/-- Every step keeps the memories in canonical form, from every state that has them so. -/
def Obligations.CanonicalKeptByStep : Prop :=
  ∀ s t : State, s.Canonical → step s = .next t → t.Canonical

/-- No step writes `tar`, `mem` or a parameter, reset sets `tar` to 0, and so `tar` is 0 in every reachable state (10_state.md
section 2; 20_memory.md section 1). -/
def Obligations.NoStepWritesTarOrProgram : Prop :=
  (∀ s t : State, step s = .next t → t.tar = s.tar ∧ t.mem = s.mem ∧ t.cfg = s.cfg) ∧
  (∀ s : State, (takeReset s).tar = 0#16) ∧
  ∀ s : State, s.Reachable → s.tar = 0#16

/-- `ps`, `ss` and `os` change by the selects only, each by its own kind, whether the instruction faults or not (10_state.md
section 2; 41_select.md section 4). -/
def Obligations.OnlySelectsWriteSelectors : Prop :=
  ∀ (i : Instr) (s t : State), exec i s = .next t →
    (i ∉ [Instr.psa, .psb, .psc, .psd] → t.ps = s.ps) ∧
    (i ∉ [Instr.ssa, .ssb, .ssc, .ssd] → t.ss = s.ss) ∧
    (i ∉ [Instr.os1, .os2, .os4] → t.os = s.os)

/-- `tmp` is written by POP only and `sc` by SET and LIT only (10_state.md section 2). -/
def Obligations.OnlyPopWritesTmp : Prop :=
  ∀ (i : Instr) (s t : State), exec i s = .next t →
    (i ≠ .pop → t.tmp = s.tmp) ∧ (i ≠ .set → (∀ b, i ≠ .lit b) → t.sc = s.sc)

/-- The four stacks are independent (10_state.md section 4): POP, PUSH, DUP and LIT touch the primary stack only, JL and JE the
two selected ones, every other instruction none, whether the instruction faults or not. -/
def Obligations.OtherStacksUnchanged : Prop :=
  ∀ (i : Instr) (s t : State), exec i s = .next t →
    (i ∉ [Instr.pop, .push, .dup, .jl, .je] → (∀ b, i ≠ .lit b) → t.stk = s.stk) ∧
    ∀ j : StackIndex, s.ps ≠ j.val → (i ∈ [Instr.jl, .je] → s.ss ≠ j.val) →
      t.stk.get j = s.stk.get j

/-- How each instruction can end: running, halted by HALT only, or with a fault of its row of the table (60_exceptions.md
section 1), under the default `HALT_INCREMENTS_PC` (D5, log 7). -/
def Obligations.HowEachInstructionEnds : Prop :=
  ∀ (i : Instr) (s t : State), s.status = .running → s.cfg.haltIncrementsPc = false → exec i s = .next t →
    (t.status = .running ∧ i ≠ .halt) ∨ (t.status = .halted ∧ i = .halt) ∨ ∃ k ∈ mayRaise i, t.status = .faulted k

/-- The `pc` of a faulted state is that of the byte whose step faulted, but for a taken jump beyond the end of `mem`, where it
is `tar` (60_exceptions.md section 3; D10, log 12). -/
def Obligations.PcOfAFaultedState : Prop :=
  ∀ (s t : State) (k : FaultKind), step s = .next t → t.status = .faulted k →
    t.pc = s.pc ∨ (t.pc = s.tar.toNat ∧ k = .programCounterOutOfBounds ∧ 1023 ≤ s.tar.toNat ∧
      decode s.cfg.opcodeMap s.sc (Memory.read s.mem s.pc) ∈ [Instr.jmp, .jl, .je])

/-- Where a step that goes on goes (43_jumps.md section 5): one byte on, or, by JMP, JL and JE only, to `tar` and the increment
after it (D4, log 6). -/
def Obligations.NextAddress : Prop :=
  ∀ s t : State, step s = .next t → t.status = .running →
    t.pc = s.pc + 1 ∨
    (decode s.cfg.opcodeMap s.sc (Memory.read s.mem s.pc) ∈ [Instr.jmp, .jl, .je] ∧
      t.pc = s.tar.toNat + (if s.cfg.jumpPostIncrement then 1 else 0))

/-- Stale bytes are never read (10_state.md section 4): two states that differ in them only take steps to states that differ in
them only. -/
def Obligations.StaleBytesAreNeverRead : Prop :=
  ∀ s t s' : State, s.SameButStale t → step s = .next s' → ∃ t', step t = .next t' ∧ s'.SameButStale t'

/-! ### Reset, load and the host's view -/

/-- The reset state (R210): every piece of state at its value, in the machine's first state and after a reset from any
state, which leaves `mem` and the parameters. -/
def Obligations.ResetState : Prop :=
  (∀ t : State, t = State.reset ∨ (∃ s, t = takeReset s) →
    t.pc = 0 ∧ t.ps = 0 ∧ t.ss = 0 ∧ t.os = 1 ∧ t.tmp = 0#32 ∧ t.tar = 0#16 ∧ t.sc = 0 ∧ t.status = .running ∧
    ∀ i, (t.stk.get i).size = 0 ∧ ∀ k, Memory.read (t.stk.get i).data k = 0#8) ∧
  ∀ s : State, (takeReset s).mem = s.mem ∧ (takeReset s).cfg = s.cfg

/-- The loaded image (R213): the file's bytes, zero fill, the excess ignored. And the order of boot (R215): filling `mem` and
asserting reset, in either order, and then releasing reset leads to the boot state with that file. Reset can come first at
any moment, in a run that never ends too; `mem` first, wherever the host may fill it: before the release of reset and once
the run has ended. That the host holds reset in this way is the spec's own choice (D20, log 22). -/
def Obligations.LoadedImage : Prop :=
  (∀ (cfg : Config) (file : List Byte) (a : Nat),
    (a < 1024 → a < file.length → Memory.read (boot cfg file).mem a = file.getD a 0#8) ∧
    (file.length ≤ a → Memory.read (boot cfg file).mem a = 0#8) ∧
    loadImage file = loadImage (file.take 1024)) ∧
  ∀ (b : Block) (file : List Byte),
    hostActs [.assertReset, .load file, .releaseReset] b = .next ⟨boot b.core.cfg file, false⟩ ∧
    (b.rst = true ∨ b.core.status ≠ .running →
      hostActs [.load file, .assertReset, .releaseReset] b = .next ⟨boot b.core.cfg file, false⟩)

/-- The byte at the program memory port is the byte the step fetches (10_state.md section 9; D15, log 17); where nothing is
fetched, with reset held too, the port answers none, the model's choice (log 27). -/
def Obligations.MemoryPortGivesTheFetchedByte : Prop :=
  ∀ b : Block,
    (b.rst = false → b.core.status = .running → b.core.pc < 1024 →
      ∃ a v, imemAddrPort b = some a ∧ a.toNat = b.core.pc ∧ imemDataPort b = some v ∧ fetch b.core = .ok v) ∧
    (b.rst = true ∨ b.core.status ≠ .running ∨ 1024 ≤ b.core.pc → imemAddrPort b = none ∧ imemDataPort b = none)

/-- One event for each step that fetches: the literal byte while `sc > 0`, else the decoded instruction, a NOP among them
(60_exceptions.md section 5; D17, log 19). -/
def Obligations.OneEventPerFetch : Prop :=
  ∀ s : State,
    (s.status = .running → s.pc < 1024 →
      (0 < s.sc → eventOf s = some (.literal (Memory.read s.mem s.pc))) ∧
      (s.sc = 0 → eventOf s = some (.decoded (decode s.cfg.opcodeMap 0 (Memory.read s.mem s.pc))))) ∧
    (s.status ≠ .running ∨ 1024 ≤ s.pc → eventOf s = none)

/-- The event port carries the event of the step (10_state.md section 9; D15, D17; logs 17, 19): its kind and the fetched byte
while `ev_valid` is 1. It is 0 while reset is held (D20, log 22), once the run has ended and where the fetch faults, and then
the two others answer none, the model's choice (log 27). -/
def Obligations.EventPortCarriesTheEvent : Prop :=
  ∀ b : Block,
    (b.rst = false → b.core.status = .running → b.core.pc < 1024 →
      evValidPort b = true ∧ evBytePort b = some (Memory.read b.core.mem b.core.pc) ∧
      (b.core.sc = 0 → evKindPort b = some 0#1) ∧ (0 < b.core.sc → evKindPort b = some 1#1)) ∧
    (b.rst = true ∨ b.core.status ≠ .running ∨ 1024 ≤ b.core.pc →
      evValidPort b = false ∧ evKindPort b = none ∧ evBytePort b = none)

/-- The status port and the exit status (10_state.md section 9; 60_exceptions.md section 5): zero exactly on a normal halt, and five
distinct codes else, for every legal `FAULT_CODE` (D14, log 16). -/
def Obligations.ExitStatusTellsTheEnd : Prop :=
  ∀ s t : State, s.cfg.wf = true → t.cfg = s.cfg →
    (exitStatus s = none ↔ s.status = .running) ∧ (exitStatus s = some 0#8 ↔ s.status = .halted) ∧
    (s.status ≠ .running → exitStatus s = exitStatus t → t.status = s.status) ∧
    (runStatePort s = 2#2 ↔ faultKindPort s ≠ 0#3)

/-- The final report (60_exceptions.md section 5): the first 16 bytes of the stacks A, B, C, D, stale ones too, once the run
has ended. That order is the spec's own choice (D2, log 4). -/
def Obligations.FinalReportLines : Prop :=
  ∀ s : State,
    (s.status = .running → finalReport s = none) ∧
    (s.status ≠ .running → s.cfg.stackName = ⟨0, 1, 2, 3⟩ →
      finalReport s = some
        ([(StackName.a, 0), (.b, 1), (.c, 2), (.d, 3)].map
          (fun r => (r.1, (List.range 16).map (Memory.read (s.stk.get r.2).data)))))

/-- The host's moves (60_exceptions.md section 5; 70_reset_and_hazards.md section 1): during a run a load is refused by name,
and while RUNNING a read of the report (U15, log 26); before the release of reset and once the run has ended a load changes
`mem` only, and after the end a read nothing. Reset can be asserted at any time; while it is held no step is taken and no
event emitted, and CORE holds the reset state; once it is released each step is CORE's (D20, log 22). -/
def Obligations.HostMoves : Prop :=
  ∀ (b : Block) (file : List Byte),
    (b.core.status = .running → hostAct .readReport b = .refused .reportWhileRunning ∧
      (b.rst = false → hostAct (.load file) b = .refused .loadWhileRunning)) ∧
    (b.rst = true ∨ b.core.status ≠ .running →
      hostAct (.load file) b = .next { b with core := { b.core with mem := loadImage file } }) ∧
    (b.core.status ≠ .running → hostAct .readReport b = .next b) ∧
    hostAct .assertReset b = .next ⟨{ State.reset with mem := b.core.mem, cfg := b.core.cfg }, true⟩ ∧
    (b.rst = true → b.event = none ∧
      b.clock = .next ⟨{ State.reset with mem := b.core.mem, cfg := b.core.cfg }, true⟩) ∧
    (b.rst = false → b.event = eventOf b.core ∧ ∀ t, step b.core = .next t → b.clock = .next ⟨t, false⟩)
end

