-- ==== Sys2Proof/Laws/Memory.lean ====
section
/-! SUPPORT. Read over write, and that every memory operation keeps the canonical form. -/

namespace Sys2Proof.Machine

theorem Memory.read_filter (m : Memory) (a x : Nat) :
    Memory.read (m.filter (fun c => c.1 != a)) x = if x = a then 0#8 else Memory.read m x := by
  induction m with
  | nil => simp [Memory.read]
  | cons c m ih =>
    obtain ⟨y, v⟩ := c
    by_cases hy : y = a
    · subst hy
      by_cases hx : x = y
      · rw [if_pos hx] at ih ⊢; simpa using ih
      · simp [hx, ih, Memory.read, Ne.symm hx]
    · by_cases hx : x = a
      · subst hx; simp [hy, ih, Memory.read]
      · simp [hy, ih, Memory.read, hx]

theorem Memory.read_insert (m : Memory) (a x : Nat) (b : Byte) (h : ∀ c ∈ m, c.1 ≠ a) :
    Memory.read (Memory.insert a b m) x = if x = a then b else Memory.read m x := by
  induction m with
  | nil => simp only [Memory.insert, Memory.read, eq_comm]
  | cons c m ih =>
    obtain ⟨y, v⟩ := c
    have hy : y ≠ a := h (y, v) (by simp)
    have ih := ih (fun c hc => h c (by simp [hc]))
    by_cases hlt : a < y
    · by_cases hx : x = a
      · simp [Memory.insert, Memory.read, hlt, hx]
      · simp [Memory.insert, Memory.read, hlt, hx, Ne.symm hx]
    · by_cases hx : x = a
      · subst hx; simp [Memory.insert, Memory.read, hlt, hy, ih]
      · simp [Memory.insert, Memory.read, hlt, ih, hx]

/-- A read after a write: the byte written at its own address, the old byte anywhere else. -/
@[simp] theorem Memory.read_write (m : Memory) (a x : Nat) (b : Byte) :
    Memory.read (Memory.write m a b) x = if x = a then b else Memory.read m x := by
  unfold Memory.write
  split
  · subst b; exact m.read_filter a x
  · rw [Memory.read_insert _ _ _ _ (by simp), Memory.read_filter]
    split <;> rfl

theorem Memory.mem_insert {m : Memory} {a : Nat} {b : Byte} {c : Host.Cell} :
    c ∈ Memory.insert a b m ↔ c = (a, b) ∨ c ∈ m := by
  induction m with
  | nil => simp [Memory.insert]
  | cons d m ih =>
    simp only [Memory.insert]
    split
    · simp
    · simp only [List.mem_cons, ih]; tauto

theorem Memory.wf_insert {m : Memory} {a : Nat} {b : Byte} (h : Memory.wf m) (ha : a < 1024) (hb : b ≠ 0#8)
    (hn : ∀ c ∈ m, c.1 ≠ a) : Memory.wf (Memory.insert a b m) := by
  refine ⟨?_, fun c hc => (Memory.mem_insert.1 hc).elim (fun e => by simp [e, ha, hb]) (h.2 c)⟩
  induction m with
  | nil => simp [Memory.insert]
  | cons d m ih =>
    have hp := List.pairwise_cons.1 h.1
    simp only [Memory.insert]
    split
    · rename_i hlt
      refine List.pairwise_cons.2 ⟨fun c hc => ?_, h.1⟩
      rcases List.mem_cons.1 hc with rfl | hc
      · exact hlt
      · exact Nat.lt_trans hlt (hp.1 c hc)
    · rename_i hlt
      refine List.pairwise_cons.2 ⟨fun c hc => ?_, ih ⟨hp.2, fun c hc => h.2 c (by simp [hc])⟩ (fun c hc => hn c (by simp [hc]))⟩
      have hd : d.1 ≠ a := hn d (by simp)
      rcases Memory.mem_insert.1 hc with rfl | hc
      · exact Nat.lt_of_le_of_ne (Nat.le_of_not_lt hlt) hd
      · exact hp.1 c hc

/-- A write inside the memory keeps the canonical form. -/
theorem Memory.wf_write {m : Memory} {a : Nat} {b : Byte} (h : Memory.wf m) (ha : a < 1024) :
    Memory.wf (Memory.write m a b) := by
  have hf : Memory.wf (m.filter (fun c => c.1 != a)) :=
    ⟨h.1.filter _, fun c hc => h.2 c (List.mem_of_mem_filter hc)⟩
  unfold Memory.write
  split
  · exact hf
  · exact Memory.wf_insert hf ha ‹_› (by simp)

theorem Memory.read_eq_zero_of_lt {m : Memory} {a : Nat} (h : ∀ c ∈ m, a < c.1) : Memory.read m a = 0#8 := by
  induction m with
  | nil => rfl
  | cons c m ih =>
    obtain ⟨y, v⟩ := c
    have : a < y := h (y, v) (by simp)
    simp only [Memory.read]
    rw [if_neg (by omega)]
    exact ih (fun c hc => h c (by simp [hc]))

/-- Canonical memories with the same bytes are equal. -/
theorem Memory.ext_read {m n : Memory} (hm : Memory.wf m) (hn : Memory.wf n)
    (h : ∀ a, Memory.read m a = Memory.read n a) : m = n := by
  induction m generalizing n with
  | nil =>
    cases n with
    | nil => rfl
    | cons d n =>
      have := h d.1
      simp only [Memory.read, if_pos] at this
      exact absurd this.symm (hn.2 d (by simp)).2
  | cons c m ih =>
    have hc := List.pairwise_cons.1 hm.1
    have hc0 := (hm.2 c (by simp)).2
    cases n with
    | nil =>
      have := h c.1
      simp only [Memory.read, if_pos] at this
      exact absurd this hc0
    | cons d n =>
      have hd := List.pairwise_cons.1 hn.1
      have hd0 := (hn.2 d (by simp)).2
      have key : c.1 = d.1 := by
        rcases Nat.lt_trichotomy c.1 d.1 with hl | he | hl
        · have := h c.1
          rw [Memory.read_eq_zero_of_lt (m := d :: n) (by
            intro x hx
            rcases List.mem_cons.1 hx with rfl | hx
            · exact hl
            · exact Nat.lt_trans hl (hd.1 x hx))] at this
          simp only [Memory.read, if_pos] at this
          exact absurd this hc0
        · exact he
        · have := h d.1
          rw [Memory.read_eq_zero_of_lt (m := c :: m) (by
            intro x hx
            rcases List.mem_cons.1 hx with rfl | hx
            · exact hl
            · exact Nat.lt_trans hl (hc.1 x hx))] at this
          simp only [Memory.read, if_pos] at this
          exact absurd this.symm hd0
      obtain ⟨x, v⟩ := c
      obtain ⟨y, w⟩ := d
      obtain rfl : x = y := key
      have hv : v = w := by have := h x; simpa [Memory.read] using this
      subst hv
      congr 1
      refine ih ⟨hc.2, fun c hc => hm.2 c (by simp [hc])⟩ ⟨hd.2, fun c hc => hn.2 c (by simp [hc])⟩ (fun a => ?_)
      by_cases ha : x = a
      · subst ha
        rw [Memory.read_eq_zero_of_lt hc.1, Memory.read_eq_zero_of_lt hd.1]
      · have := h a
        simpa [Memory.read, ha] using this

/-- Writing a byte where it already stands changes nothing. -/
theorem Memory.write_read_self {m : Memory} {a : Nat} (h : Memory.wf m) (ha : a < 1024) :
    Memory.write m a (Memory.read m a) = m := by
  refine Memory.ext_read (Memory.wf_write h ha) h (fun x => ?_)
  rw [Memory.read_write]
  split
  · subst x; rfl
  · rfl

/-! ### The loaded image -/

theorem le_of_mem_imageFrom {a : Nat} {f : List Byte} {c : Host.Cell} (h : c ∈ imageFrom a f) : a ≤ c.1 := by
  induction f generalizing a with
  | nil => simp [imageFrom] at h
  | cons b f ih =>
    simp only [imageFrom] at h
    split at h
    · simp at h
    · split at h
      · have := ih h; omega
      · rcases List.mem_cons.1 h with rfl | h
        · exact Nat.le_refl _
        · have := ih h; omega

theorem imageFrom_wf (a : Nat) (f : List Byte) : Memory.wf (imageFrom a f) := by
  induction f generalizing a with
  | nil => exact ⟨List.Pairwise.nil, by simp [imageFrom]⟩
  | cons b f ih =>
    simp only [imageFrom]
    split
    · exact ⟨List.Pairwise.nil, by simp⟩
    · split
      · exact ih (a + 1)
      · refine ⟨List.pairwise_cons.2 ⟨fun c hc => ?_, (ih (a + 1)).1⟩, fun c hc => ?_⟩
        · exact Nat.lt_of_succ_le (le_of_mem_imageFrom hc)
        · rcases List.mem_cons.1 hc with rfl | hc
          · exact ⟨Nat.lt_of_not_le ‹_›, ‹_›⟩
          · exact (ih (a + 1)).2 c hc

/-- A loaded program memory is in canonical form. -/
theorem loadImage_wf (f : List Byte) : Memory.wf (loadImage f) := imageFrom_wf 0 f

theorem read_imageFrom (a x : Nat) (f : List Byte) (hx : a ≤ x) :
    Memory.read (imageFrom a f) x = if x < 1024 then f.getD (x - a) 0#8 else 0#8 := by
  induction f generalizing a with
  | nil => simp [imageFrom, Memory.read]
  | cons b f ih =>
    simp only [imageFrom]
    split
    · rw [if_neg (by omega)]; rfl
    · rename_i ha
      rcases Nat.eq_or_lt_of_le hx with rfl | hlt
      · rw [if_pos (Nat.lt_of_not_le ha)]
        split
        · rw [Memory.read_eq_zero_of_lt (fun c hc => Nat.lt_of_succ_le (le_of_mem_imageFrom hc))]
          simp [*]
        · simp [Memory.read]
      · have e : x - a = (x - (a + 1)) + 1 := by omega
        split
        · rw [ih (a + 1) hlt, e]; simp
        · simp only [Memory.read]
          rw [if_neg (by omega), ih (a + 1) hlt, e]; simp

end Sys2Proof.Machine
end

