-- ==== Sys2Proof/Laws/State.lean ====
section
/-! SUPPORT. What each named update of the state leaves in each field, and what the bank holds after a put. -/

namespace Sys2Proof.Machine

/-! ### Taking a fault -/

@[simp] theorem takeFault_pc (k : FaultKind) (s : State) : (takeFault k s).pc = s.pc := rfl
@[simp] theorem takeFault_ps (k : FaultKind) (s : State) : (takeFault k s).ps = s.ps := rfl
@[simp] theorem takeFault_ss (k : FaultKind) (s : State) : (takeFault k s).ss = s.ss := rfl
@[simp] theorem takeFault_os (k : FaultKind) (s : State) : (takeFault k s).os = s.os := rfl
@[simp] theorem takeFault_tmp (k : FaultKind) (s : State) : (takeFault k s).tmp = s.tmp := rfl
@[simp] theorem takeFault_tar (k : FaultKind) (s : State) : (takeFault k s).tar = s.tar := rfl
@[simp] theorem takeFault_sc (k : FaultKind) (s : State) : (takeFault k s).sc = s.sc := rfl
@[simp] theorem takeFault_status (k : FaultKind) (s : State) : (takeFault k s).status = .faulted k := rfl
@[simp] theorem takeFault_stk (k : FaultKind) (s : State) : (takeFault k s).stk = s.stk := rfl
@[simp] theorem takeFault_mem (k : FaultKind) (s : State) : (takeFault k s).mem = s.mem := rfl
@[simp] theorem takeFault_cfg (k : FaultKind) (s : State) : (takeFault k s).cfg = s.cfg := rfl

/-! ### Reset -/

/-- The writes of reset leave the reset state, with the program and the parameters as they were (R210). -/
theorem takeReset_eq (s : State) : takeReset s = { State.reset with mem := s.mem, cfg := s.cfg } := rfl

@[simp] theorem takeReset_pc (s : State) : (takeReset s).pc = 0 := rfl
@[simp] theorem takeReset_ps (s : State) : (takeReset s).ps = 0 := rfl
@[simp] theorem takeReset_ss (s : State) : (takeReset s).ss = 0 := rfl
@[simp] theorem takeReset_os (s : State) : (takeReset s).os = 1 := rfl
@[simp] theorem takeReset_tmp (s : State) : (takeReset s).tmp = 0#32 := rfl
@[simp] theorem takeReset_tar (s : State) : (takeReset s).tar = 0#16 := rfl
@[simp] theorem takeReset_sc (s : State) : (takeReset s).sc = 0 := rfl
@[simp] theorem takeReset_status (s : State) : (takeReset s).status = .running := rfl
@[simp] theorem takeReset_stk (s : State) : (takeReset s).stk = ⟨ByteStack.empty, ByteStack.empty, ByteStack.empty, ByteStack.empty⟩ := rfl
@[simp] theorem takeReset_mem (s : State) : (takeReset s).mem = s.mem := rfl
@[simp] theorem takeReset_cfg (s : State) : (takeReset s).cfg = s.cfg := rfl

/-! ### The register writes -/

@[simp] theorem readState_apply {α : Type} (f : State → α) (s : State) : readState f s = .ok (f s) s := rfl
@[simp] theorem raise_apply {α : Type} (k : FaultKind) (s : State) : (raise k : Action α) s = .error k s := rfl
@[simp] theorem writePc_apply (v : Nat) (s : State) : writePc v s = .ok () { s with pc := v } := rfl
@[simp] theorem writePs_apply (v : Nat) (s : State) : writePs v s = .ok () { s with ps := v } := rfl
@[simp] theorem writeSs_apply (v : Nat) (s : State) : writeSs v s = .ok () { s with ss := v } := rfl
@[simp] theorem writeOs_apply (v : Nat) (s : State) : writeOs v s = .ok () { s with os := v } := rfl
@[simp] theorem writeTmp_apply (v : Word) (s : State) : writeTmp v s = .ok () { s with tmp := v } := rfl
@[simp] theorem writeTar_apply (v : Addr) (s : State) : writeTar v s = .ok () { s with tar := v } := rfl
@[simp] theorem writeSc_apply (v : Nat) (s : State) : writeSc v s = .ok () { s with sc := v } := rfl
@[simp] theorem writeStatus_apply (v : Status) (s : State) : writeStatus v s = .ok () { s with status := v } := rfl
@[simp] theorem resetStack_apply (i : StackIndex) (s : State) :
    resetStack i s = .ok () { s with stk := s.stk.put i ByteStack.empty } := rfl

/-! ### The bank -/

@[simp] theorem StackBank.get_put_self (k : StackBank) (i : StackIndex) (st : ByteStack) : (k.put i st).get i = st := by
  fin_cases i <;> rfl

theorem StackBank.get_put_of_ne (k : StackBank) {i j : StackIndex} (h : j ≠ i) (st : ByteStack) :
    (k.put i st).get j = k.get j := by
  fin_cases i <;> fin_cases j <;> first | rfl | exact absurd rfl h

theorem StackBank.get_put (k : StackBank) (i j : StackIndex) (st : ByteStack) :
    (k.put i st).get j = if j = i then st else k.get j := by
  split
  · subst j; simp
  · rename_i h; exact k.get_put_of_ne h st

@[simp] theorem StackBank.put_put (k : StackBank) (i : StackIndex) (x y : ByteStack) : (k.put i x).put i y = k.put i y := by
  fin_cases i <;> rfl

@[simp] theorem StackBank.put_get (k : StackBank) (i : StackIndex) : k.put i (k.get i) = k := by
  fin_cases i <;> rfl

/-- A bank is its four stacks. -/
theorem StackBank.ext_get {k l : StackBank} (h : ∀ i, k.get i = l.get i) : k = l := by
  obtain ⟨a, b, c, d⟩ := k
  obtain ⟨a', b', c', d'⟩ := l
  have h0 := h 0
  have h1 := h 1
  have h2 := h 2
  have h3 := h 3
  simp only [StackBank.get] at h0 h1 h2 h3
  simp [h0, h1, h2, h3]

end Sys2Proof.Machine
end

