-- ==== Sys2Proof/Laws/Actions.lean ====
section
/-! SUPPORT. What the shared actions answer, once for each: sequencing, the ByteStack primitives, the multi-byte helpers,
the checks, the peeks, the end of a step. -/

namespace Sys2Proof.Machine

/-! ### Sequencing -/

theorem bind_ok {α β : Type} {x : Action α} {f : α → Action β} {s t : State} {a : α} (h : x s = .ok a t) :
    (x >>= f) s = f a t := by
  change EStateM.bind x f s = _
  simp only [EStateM.bind, h]

theorem bind_error {α β : Type} {x : Action α} {f : α → Action β} {s t : State} {k : FaultKind}
    (h : x s = .error k t) : (x >>= f) s = .error k t := by
  change EStateM.bind x f s = _
  simp only [EStateM.bind, h]

@[simp] theorem pure_apply {α : Type} (a : α) (s : State) : (pure a : Action α) s = .ok a s := rfl

@[simp] theorem map_apply {α β : Type} (f : α → β) (x : Action α) (s : State) :
    (f <$> x) s = match x s with
      | .ok a t => .ok (f a) t
      | .error k t => .error k t := by
  change EStateM.map f x s = _
  simp only [EStateM.map]
  cases x s <;> rfl

@[simp] theorem readState_bind {α β : Type} (f : State → α) (g : α → Action β) (s : State) :
    (readState f >>= g) s = g (f s) s := rfl

@[simp] theorem pure_bind_apply {α β : Type} (a : α) (g : α → Action β) (s : State) :
    ((pure a : Action α) >>= g) s = g a s := rfl

@[simp] theorem writePc_bind {β : Type} (v : Nat) (g : Unit → Action β) (s : State) :
    (writePc v >>= g) s = g () { s with pc := v } := rfl

@[simp] theorem writePs_bind {β : Type} (v : Nat) (g : Unit → Action β) (s : State) :
    (writePs v >>= g) s = g () { s with ps := v } := rfl

@[simp] theorem writeSs_bind {β : Type} (v : Nat) (g : Unit → Action β) (s : State) :
    (writeSs v >>= g) s = g () { s with ss := v } := rfl

@[simp] theorem writeOs_bind {β : Type} (v : Nat) (g : Unit → Action β) (s : State) :
    (writeOs v >>= g) s = g () { s with os := v } := rfl

@[simp] theorem writeTmp_bind {β : Type} (v : Word) (g : Unit → Action β) (s : State) :
    (writeTmp v >>= g) s = g () { s with tmp := v } := rfl

@[simp] theorem writeTar_bind {β : Type} (v : Addr) (g : Unit → Action β) (s : State) :
    (writeTar v >>= g) s = g () { s with tar := v } := rfl

@[simp] theorem writeSc_bind {β : Type} (v : Nat) (g : Unit → Action β) (s : State) :
    (writeSc v >>= g) s = g () { s with sc := v } := rfl

@[simp] theorem resetStack_bind {β : Type} (i : StackIndex) (g : Unit → Action β) (s : State) :
    (resetStack i >>= g) s = g () { s with stk := s.stk.put i ByteStack.empty } := rfl

@[simp] theorem writeStatus_bind {β : Type} (v : Status) (g : Unit → Action β) (s : State) :
    (writeStatus v >>= g) s = g () { s with status := v } := rfl

/-! ### One stack -/

theorem ByteStack.push_full {st : ByteStack} (h : 1024 ≤ st.size.val) (b : Byte) : st.push b = .error .stackOverflow := by
  simp [ByteStack.push, Nat.not_lt.2 h]

/-- A push onto a stack with room. -/
theorem ByteStack.push_ok {st : ByteStack} (h : st.size.val < 1024) (b : Byte) :
    ∃ st', st.push b = .ok st' ∧ st'.PushedOnto st [b] ∧ (Memory.wf st.data → Memory.wf st'.data) := by
  refine ⟨⟨Memory.write st.data st.size.val b, ⟨st.size.val + 1, by omega⟩⟩, by simp [ByteStack.push, h], ⟨rfl, ?_, ?_⟩,
    fun w => Memory.wf_write w h⟩
  · intro k hk
    obtain rfl : k = 0 := by simpa using hk
    simp
  · intro a ha
    simp only [List.length_cons, List.length_nil] at ha
    simp only [Memory.read_write]
    rw [if_neg (by omega)]

@[simp] theorem ByteStack.drop_zero (st : ByteStack) : st.drop 0 = st := rfl

@[simp] theorem ByteStack.drop_data (st : ByteStack) (n : Nat) : (st.drop n).data = st.data := rfl

@[simp] theorem ByteStack.drop_size (st : ByteStack) (n : Nat) : (st.drop n).size.val = st.size.val - n := rfl

theorem ByteStack.drop_of_empty {st : ByteStack} (h : st.size.val = 0) (n : Nat) : st.drop n = st := by
  have e : st.size.val - n = st.size.val := by omega
  simp only [ByteStack.drop, e]

@[simp] theorem ByteStack.drop_drop (st : ByteStack) (m n : Nat) : (st.drop m).drop n = st.drop (m + n) := by
  simp only [ByteStack.drop, Nat.sub_sub]

/-- Taking off more than a stack holds leaves it empty. -/
theorem ByteStack.drop_all {st : ByteStack} {n : Nat} (h : st.size.val ≤ n) : st.drop n = ⟨st.data, 0⟩ := by
  have e : st.size.val - n = 0 := by omega
  simp only [ByteStack.drop, e]
  rfl

theorem ByteStack.topByte_drop (st : ByteStack) (m k : Nat) : (st.drop m).topByte k = st.topByte (m + k) := by
  simp only [ByteStack.topByte, ByteStack.drop]
  congr 1
  omega

theorem ByteStack.pop_empty {st : ByteStack} (h : st.size.val = 0) : st.pop = .error .stackUnderflow := by
  simp [ByteStack.pop, h]

theorem ByteStack.pop_ok {st : ByteStack} (h : 0 < st.size.val) : st.pop = .ok (st.topByte 0, st.drop 1) := by
  simp [ByteStack.pop, ByteStack.topByte, ByteStack.drop, Nat.pos_iff_ne_zero.1 h]

/-- A stack with the bytes that were on its top back on it. -/
theorem ByteStack.PushedOnto.trans {x y z : ByteStack} {p q : List Byte} (h : y.PushedOnto x p) (g : z.PushedOnto y q) :
    z.PushedOnto x (p ++ q) := by
  obtain ⟨h1, h2, h3⟩ := h
  obtain ⟨g1, g2, g3⟩ := g
  refine ⟨by simp [g1, h1, Nat.add_assoc], fun k hk => ?_, fun a ha => ?_⟩
  · by_cases hp : k < p.length
    · rw [g3 _ (Or.inl (by omega)), h2 k hp]
      rw [List.getD_append _ _ _ _ hp]
    · have := g2 (k - p.length) (by simp at hk; omega)
      rw [h1, show x.size.val + p.length + (k - p.length) = x.size.val + k by omega] at this
      rw [this, List.getD_append_right _ _ _ _ (by omega)]
  · simp only [List.length_append] at ha
    rcases ha with ha | ha
    · rw [g3 a (Or.inl (by omega)), h3 a (Or.inl ha)]
    · rw [g3 a (Or.inr (by omega)), h3 a (Or.inr (by omega))]

/-- The top of a stack after pushes: the last byte pushed first. -/
theorem ByteStack.PushedOnto.topByte {x y : ByteStack} {bs : List Byte} (h : y.PushedOnto x bs) {k : Nat}
    (hk : k < bs.length) : y.topByte k = bs.getD (bs.length - 1 - k) 0#8 := by
  obtain ⟨h1, h2, -⟩ := h
  rw [← h2 _ (by omega), ByteStack.topByte, h1]
  congr 1
  omega

/-- The `n` top bytes, the deepest first: what a push-back pushes. -/
theorem ByteStack.pushedOnto_drop {x y : ByteStack} {n : Nat} (hn : n ≤ x.size.val)
    (h : y.PushedOnto (x.drop n) ((List.range n).map x.topByte).reverse) :
    y.size = x.size ∧ ∀ a, Memory.read y.data a = Memory.read x.data a := by
  obtain ⟨h1, h2, h3⟩ := h
  simp only [drop_size, List.length_reverse, List.length_map, List.length_range, drop_data] at h1 h2 h3
  refine ⟨Fin.ext (by omega), fun a => ?_⟩
  by_cases ha : x.size.val - n ≤ a ∧ a < x.size.val
  · have := h2 (a - (x.size.val - n)) (by omega)
    rw [show x.size.val - n + (a - (x.size.val - n)) = a by omega] at this
    rw [this, List.getD_eq_getElem _ _ (by simp; omega), List.getElem_reverse]
    simp only [List.length_map, List.length_range, List.getElem_map, List.getElem_range, ByteStack.topByte]
    congr 1
    omega
  · exact h3 a (by omega)

/-! ### The primitives on the bank -/

theorem pushByte_ok {i : StackIndex} {s : State} {st : ByteStack} {b : Byte} (h : (s.stk.get i).push b = .ok st) :
    pushByte i b s = .ok () { s with stk := s.stk.put i st } := by
  simp [pushByte, h]

theorem pushByte_full {i : StackIndex} {s : State} (h : 1024 ≤ (s.stk.get i).size.val) (b : Byte) :
    pushByte i b s = .error .stackOverflow s := by
  simp [pushByte, ByteStack.push_full h]

theorem popByte_ok {i : StackIndex} {s : State} (h : 0 < (s.stk.get i).size.val) :
    popByte i s = .ok ((s.stk.get i).topByte 0) { s with stk := s.stk.put i ((s.stk.get i).drop 1) } := by
  simp [popByte, ByteStack.pop_ok h]

theorem popByte_empty {i : StackIndex} {s : State} (h : (s.stk.get i).size.val = 0) :
    popByte i s = .error .stackUnderflow s := by
  simp [popByte, ByteStack.pop_empty h]

/-- `PopN` from a stack that holds enough. -/
theorem popN_ok {i : StackIndex} {n : Nat} {s : State} (h : n ≤ (s.stk.get i).size.val) :
    popN i n s = .ok ((List.range n).map (s.stk.get i).topByte) { s with stk := s.stk.put i ((s.stk.get i).drop n) } := by
  induction n generalizing s with
  | zero => simp [popN]
  | succ n ih =>
    have h1 := popByte_ok (i := i) (s := s) (by omega)
    rw [popN, bind_ok h1, bind_ok (ih (by simp; omega))]
    simp only [pure_apply, StackBank.get_put_self, StackBank.put_put, ByteStack.drop_drop, List.range_succ_eq_map,
      List.map_cons, List.map_map]
    rw [Nat.add_comm 1 n]
    congr 3
    funext k
    simp [ByteStack.topByte_drop, Nat.add_comm]

/-- `PopN` from a stack that holds too little: it is left empty (R140, R187). -/
theorem popN_underflow {i : StackIndex} {n : Nat} {s : State} (h : (s.stk.get i).size.val < n) :
    popN i n s = .error .stackUnderflow { s with stk := s.stk.put i ((s.stk.get i).drop n) } := by
  induction n generalizing s with
  | zero => omega
  | succ n ih =>
    by_cases h0 : (s.stk.get i).size.val = 0
    · rw [popN, bind_error (popByte_empty h0)]
      have : (s.stk.get i).drop (n + 1) = s.stk.get i := ByteStack.drop_of_empty h0 _
      simp [this]
    · have h1 := popByte_ok (i := i) (s := s) (by omega)
      rw [popN, bind_ok h1, bind_error (ih (by simp; omega))]
      simp [Nat.add_comm]

/-- Pushing a list onto a stack with room for it. -/
theorem pushAll_ok {i : StackIndex} {bs : List Byte} {s : State} (h : (s.stk.get i).size.val + bs.length ≤ 1024) :
    ∃ st, pushAll i bs s = .ok () { s with stk := s.stk.put i st } ∧ st.PushedOnto (s.stk.get i) bs ∧
      (Memory.wf (s.stk.get i).data → Memory.wf st.data) := by
  induction bs generalizing s with
  | nil => exact ⟨s.stk.get i, by simp [pushAll], ⟨rfl, by simp, fun _ _ => rfl⟩, id⟩
  | cons b bs ih =>
    obtain ⟨x, hx, px, wx⟩ := ByteStack.push_ok (st := s.stk.get i) (by simp at h; omega) b
    have px' := px
    obtain ⟨px1, -, -⟩ := px
    obtain ⟨y, hy, py, wy⟩ := ih (s := { s with stk := s.stk.put i x }) (by simp at h px1 ⊢; omega)
    simp only [StackBank.get_put_self] at py wy
    refine ⟨y, ?_, px'.trans py, wy ∘ wx⟩
    rw [pushAll, bind_ok (pushByte_ok hx), hy]
    simp

/-- Pushing a list onto a stack without room for all of it: the bytes that fit are pushed (R187). -/
theorem pushAll_overflow {i : StackIndex} {bs : List Byte} {s : State}
    (h : 1024 < (s.stk.get i).size.val + bs.length) :
    ∃ st, pushAll i bs s = .error .stackOverflow { s with stk := s.stk.put i st } ∧
      st.PushedOnto (s.stk.get i) (bs.take (1024 - (s.stk.get i).size.val)) ∧
      (Memory.wf (s.stk.get i).data → Memory.wf st.data) := by
  induction bs generalizing s with
  | nil =>
    have := (s.stk.get i).size.isLt
    simp at h
    omega
  | cons b bs ih =>
    by_cases hf : 1024 ≤ (s.stk.get i).size.val
    · refine ⟨s.stk.get i, by rw [pushAll, bind_error (pushByte_full hf b)]; simp, ?_, id⟩
      rw [Nat.sub_eq_zero_of_le hf]
      exact ⟨rfl, by simp, fun _ _ => rfl⟩
    · obtain ⟨x, hx, px, wx⟩ := ByteStack.push_ok (st := s.stk.get i) (by omega) b
      have px' := px
      obtain ⟨px1, -, -⟩ := px
      obtain ⟨y, hy, py, wy⟩ := ih (s := { s with stk := s.stk.put i x }) (by simp at h px1 ⊢; omega)
      simp only [StackBank.get_put_self] at py wy
      refine ⟨y, ?_, ?_, wy ∘ wx⟩
      · rw [pushAll, bind_ok (pushByte_ok hx), hy]
        simp
      · have e : 1024 - (s.stk.get i).size.val = (1024 - x.size.val) + 1 := by simp at px1; omega
        rw [e, List.take_succ_cons]
        exact px'.trans py

/-- A push-back after a pop of as many bytes gives the size and every byte back, and cannot overflow (R141). -/
theorem pushBack_reads {i : StackIndex} {n : Nat} {s : State} {st : ByteStack} (hn : n ≤ st.size.val)
    (hd : s.stk.get i = st.drop n) :
    ∃ y : ByteStack, pushBack i ((List.range n).map st.topByte) s = .ok () { s with stk := s.stk.put i y } ∧
      y.size = st.size ∧ (∀ a, Memory.read y.data a = Memory.read st.data a) ∧
      (Memory.wf st.data → Memory.wf y.data) := by
  obtain ⟨y, hy, py, wy⟩ := pushAll_ok (i := i) (bs := ((List.range n).map st.topByte).reverse) (s := s) (by
    rw [hd]; have := st.size.isLt; simp; omega)
  rw [hd] at py wy
  obtain ⟨e1, e2⟩ := ByteStack.pushedOnto_drop hn py
  exact ⟨y, hy, e1, e2, wy⟩

/-- A push-back after a pop of as many bytes gives the stack back, when its memory is in canonical form (R141). -/
theorem pushBack_popN {i : StackIndex} {n : Nat} {s : State} {st : ByteStack} (hn : n ≤ st.size.val)
    (hw : Memory.wf st.data) (hd : s.stk.get i = st.drop n) :
    pushBack i ((List.range n).map st.topByte) s = .ok () { s with stk := s.stk.put i st } := by
  obtain ⟨y, hy, e1, e2, wy⟩ := pushBack_reads hn hd
  have : y = st := by
    have e3 := Memory.ext_read (wy hw) hw e2
    obtain ⟨yd, ys⟩ := y
    obtain ⟨sd, ss⟩ := st
    simp only at e1 e3
    rw [e1, e3]
  rw [hy, this]

/-- A peek changes nothing (R160). -/
theorem peek_ok {i : StackIndex} {n : Nat} {s : State} (hn : n ≤ (s.stk.get i).size.val)
    (hw : Memory.wf (s.stk.get i).data) : peek i n s = .ok ((List.range n).map (s.stk.get i).topByte) s := by
  rw [peek, bind_ok (popN_ok hn), bind_ok (pushBack_popN hn hw (by simp))]
  simp

/-- A peek keeps the size and every byte, whatever the form of the memory. -/
theorem peek_reads {i : StackIndex} {n : Nat} {s : State} (hn : n ≤ (s.stk.get i).size.val) :
    ∃ y : ByteStack, peek i n s = .ok ((List.range n).map (s.stk.get i).topByte) { s with stk := s.stk.put i y } ∧
      y.size = (s.stk.get i).size ∧ (∀ a, Memory.read y.data a = Memory.read (s.stk.get i).data a) ∧
      (Memory.wf (s.stk.get i).data → Memory.wf y.data) := by
  obtain ⟨y, hy, h⟩ := pushBack_reads (i := i) (s := { s with stk := s.stk.put i ((s.stk.get i).drop n) }) hn (by simp)
  refine ⟨y, ?_, h⟩
  rw [peek, bind_ok (popN_ok hn), bind_ok hy]
  simp

theorem peek_underflow {i : StackIndex} {n : Nat} {s : State} (h : (s.stk.get i).size.val < n) :
    peek i n s = .error .stackUnderflow { s with stk := s.stk.put i ((s.stk.get i).drop n) } := by
  rw [peek, bind_error (popN_underflow h)]

/-! ### The checks -/

theorem operandSize_ok {s : State} {n : OperandSize} (h : legalSize s.os = some n) : operandSize s = .ok n s := by
  simp [operandSize, h]

theorem operandSize_error {s : State} (h : legalSize s.os = none) : operandSize s = .error .invalidOperandSize s := by
  simp [operandSize, h]

/-- The operand size of a legal `os`. -/
theorem legalSize_eq {v n : Nat} (hn : n = 1 ∨ n = 2 ∨ n = 4) (h : v = n) :
    ∃ z, legalSize v = some z ∧ byteCount z = n := by
  rcases hn with rfl | rfl | rfl <;> subst h
  · exact ⟨.one, rfl, rfl⟩
  · exact ⟨.two, rfl, rfl⟩
  · exact ⟨.four, rfl, rfl⟩

theorem legalSize_none {v : Nat} (h : v ≠ 1 ∧ v ≠ 2 ∧ v ≠ 4) : legalSize v = none := by
  simp [legalSize, h]

theorem requestStack_ok {v : Nat} {i : StackIndex} (h : v = i.val) (s : State) :
    requestStack v s = .ok i s := by
  subst h
  simp [requestStack]

theorem requestStack_error {v : Nat} (h : 4 ≤ v) (s : State) :
    requestStack v s = .error .invalidStackSelector s := by
  simp [requestStack, Nat.not_lt.2 h]

theorem primary_ok {s : State} {i : StackIndex} (h : s.ps = i.val) : primary s = .ok i s := by
  simp only [primary, readState_bind, requestStack_ok h]

theorem primary_error {s : State} (h : 4 ≤ s.ps) : primary s = .error .invalidStackSelector s := by
  simp only [primary, readState_bind, requestStack_error h]

theorem secondary_ok {s : State} {i : StackIndex} (h : s.ss = i.val) : secondary s = .ok i s := by
  simp only [secondary, readState_bind, requestStack_ok h]

theorem secondary_error {s : State} (h : 4 ≤ s.ss) : secondary s = .error .invalidStackSelector s := by
  simp only [secondary, readState_bind, requestStack_error h]

/-! ### The end of a step -/

theorem settle_error {a : Action Advance} {s t : State} {k : FaultKind} (h : a s = .error k t) :
    settle a s = .next (takeFault k t) := by
  rw [settle, bind_error h]

/-- An execute phase that leaves the machine running ends in the increment (R105). -/
theorem settle_increment {a : Action Advance} {s t : State} (h : a s = .ok .increment t) (hr : t.status = .running) :
    EndsAfter (settle a s) t := by
  constructor <;> intro hp <;> rw [settle, bind_ok h] <;> simp only [finish, readState_bind, hr, if_true, incrementPc]
  · rw [if_neg (by omega)]
  · rw [if_pos (by omega)]; rfl

theorem settle_stay {a : Action Advance} {s t : State} (h : a s = .ok .stay t) : settle a s = .next t := by
  rw [settle, bind_ok h]; rfl

/-- After an execute phase that ended the run there is no increment (R100). -/
theorem settle_stopped {a : Action Advance} {s t : State} (h : a s = .ok .increment t) (hr : t.status ≠ .running) :
    settle a s = .next t := by
  rw [settle, bind_ok h]
  simp [finish, hr]

/-- An instruction never ends in a fault or a refusal of the model: a fault of the machine is a next state. -/
theorem settle_next (a : Action Advance) (s : State) : ∃ t, settle a s = .next t := by
  unfold settle
  split <;> exact ⟨_, rfl⟩

/-- A taken jump (R165). -/
theorem takeJump_ends {a : Action Advance} {s t : State} (h : a s = takeJump t) (hr : t.status = .running) :
    EndsInJump (settle a s) t := by
  refine ⟨fun hj => ?_, fun hj => ?_⟩
  · exact settle_increment (t := { t with pc := t.tar.toNat }) (by rw [h]; simp [takeJump, hj]) hr
  · exact settle_stay (by rw [h]; simp [takeJump, hj])

end Sys2Proof.Machine
end

