-- ==== Sys2Proof/Laws/Decode.lean ====
section
/-! SUPPORT. What decoding answers for a byte of the opcode map and for any other byte (30_encoding.md R82). -/

namespace Sys2Proof

/-- The byte of a row is read as the row's instruction, when the values are distinct. -/
theorem decodeOpcode_row {m : OpcodeMap} (hd : m.distinct = true) {r : Instr × Byte} (hr : r ∈ m.rows) :
    decodeOpcode m r.2 = r.1 := by
  have hn : (m.rows.map Prod.snd).Nodup := by simpa [OpcodeMap.distinct] using hd
  unfold decodeOpcode
  cases hf : m.rows.find? (fun x => x.2 == r.2) with
  | none => exact absurd (by simp) (List.find?_eq_none.1 hf r hr)
  | some x =>
    have hx : x.2 = r.2 := by simpa using List.find?_some hf
    obtain rfl := List.inj_on_of_nodup_map hn (List.mem_of_find?_eq_some hf) hr hx
    rfl

/-- Any other byte is a NOP. -/
theorem decodeOpcode_nop {m : OpcodeMap} {b : Byte} (hb : b ∉ m.rows.map Prod.snd) : decodeOpcode m b = .nop b := by
  unfold decodeOpcode
  cases hf : m.rows.find? (fun x => x.2 == b) with
  | none => rfl
  | some x =>
    have hx : x.2 = b := by simpa using List.find?_some hf
    exact absurd (hx ▸ List.mem_map_of_mem (List.mem_of_find?_eq_some hf)) hb

theorem modeOf_of_pos {sc : Nat} (h : 0 < sc) : modeOf sc = .literal := by
  simp [modeOf, Nat.pos_iff_ne_zero.1 h]

end Sys2Proof
end

