-- ==== Sys2Proof/Laws/Frames.lean ====
section
/-! SUPPORT. A relation between the state before and the state after, followed through the sequencing of actions: how
frames and invariants of an instruction come from those of the writes it is made of. -/

namespace Sys2Proof.Machine

/-- Whatever the action answers, value or fault, `R` relates the state before to the state after. -/
def Moves {α : Type} (R : State → State → Prop) (a : Action α) : Prop :=
  ∀ s, match a s with
    | .ok _ t => R s t
    | .error _ t => R s t

variable {R : State → State → Prop}

theorem moves_pure {α : Type} (refl : ∀ s, R s s) (x : α) : Moves R (pure x : Action α) := fun s => refl s

theorem moves_raise {α : Type} (refl : ∀ s, R s s) (k : FaultKind) : Moves R (raise k : Action α) := fun s => refl s

theorem moves_readState {α : Type} (refl : ∀ s, R s s) (f : State → α) : Moves R (readState f) := fun s => refl s

theorem moves_bind {α β : Type} (trans : ∀ a b c, R a b → R b c → R a c) {x : Action α} {f : α → Action β}
    (hx : Moves R x) (hf : ∀ a, Moves R (f a)) : Moves R (x >>= f) := by
  intro s
  have h := hx s
  cases e : x s with
  | ok a t =>
    rw [bind_ok e]
    rw [e] at h
    have g := hf a t
    cases e' : f a t with
    | ok b u => rw [e'] at g; exact trans _ _ _ h g
    | error k u => rw [e'] at g; exact trans _ _ _ h g
  | error k t =>
    rw [bind_error e]
    rw [e] at h
    exact h

theorem moves_operandSize (refl : ∀ s, R s s) : Moves R operandSize := by
  intro s
  cases h : legalSize s.os with
  | none => rw [operandSize_error h]; exact refl s
  | some n => rw [operandSize_ok h]; exact refl s

theorem moves_requestStack (refl : ∀ s, R s s) (v : Nat) : Moves R (requestStack v) := by
  unfold requestStack
  split
  · exact moves_pure refl _
  · exact moves_raise refl _

theorem moves_popN (refl : ∀ s, R s s) (trans : ∀ a b c, R a b → R b c → R a c) {i : StackIndex}
    (hp : Moves R (popByte i)) (n : Nat) : Moves R (popN i n) := by
  induction n with
  | zero => exact moves_pure refl _
  | succ n ih => exact moves_bind trans hp (fun _ => moves_bind trans ih (fun _ => moves_pure refl _))

theorem moves_pushAll (refl : ∀ s, R s s) (trans : ∀ a b c, R a b → R b c → R a c) {i : StackIndex}
    (hp : ∀ b, Moves R (pushByte i b)) (bs : List Byte) : Moves R (pushAll i bs) := by
  induction bs with
  | nil => exact moves_pure refl _
  | cons b bs ih => exact moves_bind trans (hp b) (fun _ => ih)

theorem moves_peekOperands (refl : ∀ s, R s s) (trans : ∀ a b c, R a b → R b c → R a c) {i j : StackIndex}
    (pi : Moves R (popByte i)) (pj : Moves R (popByte j)) (qi : ∀ b, Moves R (pushByte i b))
    (qj : ∀ b, Moves R (pushByte j b)) (n : Nat) : Moves R (peekOperands i j n) := by
  have hi : Moves R (peek i n) := moves_bind trans (moves_popN refl trans pi n) (fun _ =>
    moves_bind trans (moves_pushAll refl trans qi _) (fun _ => moves_pure refl _))
  have hj : Moves R (peek j n) := moves_bind trans (moves_popN refl trans pj n) (fun _ =>
    moves_bind trans (moves_pushAll refl trans qj _) (fun _ => moves_pure refl _))
  have hb : Moves R (peekBoth i j n) :=
    moves_bind trans hi (fun _ => moves_bind trans hj (fun _ => moves_pure refl _))
  refine moves_bind trans (moves_readState refl _) (fun a => ?_)
  cases a with
  | sequential => exact hb
  | interleaved =>
    simp only
    split
    · exact moves_bind trans (moves_popN refl trans pi n) (fun _ => moves_bind trans (moves_popN refl trans pi n)
        (fun _ => moves_bind trans (moves_pushAll refl trans qi _) (fun _ => moves_bind trans
          (moves_pushAll refl trans qi _) (fun _ => moves_pure refl _))))
    · exact hb

/-- The next state of a settled action: the action and the end of the step both move by `R`, and so does taking a fault. -/
theorem settle_moves (refl : ∀ s, R s s) (trans : ∀ a b c, R a b → R b c → R a c)
    (fault : ∀ k s, R s (takeFault k s)) (inc : Moves R incrementPc) {a : Action Advance} (ha : Moves R a)
    {s t : State} (h : settle a s = .next t) : R s t := by
  have hf : ∀ adv, Moves R (finish adv) := by
    intro adv
    cases adv with
    | stay => exact moves_pure refl _
    | increment =>
      refine moves_bind trans (moves_readState refl _) (fun st => ?_)
      split
      · exact inc
      · exact moves_pure refl _
  have g := moves_bind trans ha hf s
  unfold settle at h
  split at h
  · rename_i e
    rw [e] at g
    cases h
    exact g
  · rename_i e
    rw [e] at g
    cases h
    exact trans _ _ _ g (fault _ _)

/-! ### The primitives, for a relation that their single writes keep -/

theorem moves_pushByte (refl : ∀ s, R s s) (h : ∀ (s : State) (k : StackBank), R s { s with stk := k }) (i : StackIndex)
    (b : Byte) : Moves R (pushByte i b) := by
  intro s
  unfold pushByte
  cases (s.stk.get i).push b with
  | ok st => exact h _ _
  | error k => exact refl s

theorem moves_popByte (refl : ∀ s, R s s) (h : ∀ (s : State) (k : StackBank), R s { s with stk := k }) (i : StackIndex) :
    Moves R (popByte i) := by
  intro s
  unfold popByte
  cases (s.stk.get i).pop with
  | ok st => exact h _ _
  | error k => exact refl s

theorem moves_incrementPc (refl : ∀ s, R s s)
    (h : ∀ s : State, s.pc + 1 < 1024 → R s { s with pc := s.pc + 1 }) :
    Moves R incrementPc := by
  intro s
  by_cases hp : 1024 ≤ s.pc + 1
  · simp only [incrementPc, if_pos hp]; exact refl s
  · simp only [incrementPc, if_neg hp]; exact h s (by omega)

/-- What every instruction does, for a relation that each single write of an execute phase keeps: the writes that only
some instructions make are asked for those only. Whatever `R` says of the writes, it says of the instruction, whether it
faults or not. -/
theorem exec_moves (refl : ∀ s, R s s) (trans : ∀ a b c, R a b → R b c → R a c)
    (fault : ∀ k s, R s (takeFault k s)) (inc : Moves R incrementPc)
    (push : ∀ i b, Moves R (pushByte i b)) (pop : ∀ i, Moves R (popByte i))
    (jump : ∀ s : State, R s { s with pc := s.tar.toNat }) (halt : ∀ s : State, R s { s with status := .halted })
    (i : Instr)
    (ps : ∀ n, i ∈ [Instr.psa, .psb, .psc, .psd] → Moves R (writePs (selectorOf n)))
    (ss : ∀ n, i ∈ [Instr.ssa, .ssb, .ssc, .ssd] → Moves R (writeSs (selectorOf n)))
    (os : ∀ v, v = 1 ∨ v = 2 ∨ v = 4 → i ∈ [Instr.os1, .os2, .os4] → Moves R (writeOs v))
    (tmp : i = .pop → ∀ v, Moves R (writeTmp v))
    (set : i = .set → ∀ (s : State) n, legalSize s.os = some n → R s { s with sc := s.os })
    (lit : (∃ b, i = .lit b) → ∀ s : State, R s { s with sc := s.sc - 1 })
    {s t : State} (h : exec i s = .next t) : R s t := by
  have P : ∀ {α} (x : α), Moves R (pure x : Action α) := fun x => moves_pure refl x
  have RS : ∀ {α} (f : State → α), Moves R (readState f) := fun f => moves_readState refl f
  have B : ∀ {α β} {x : Action α} {f : α → Action β}, Moves R x → (∀ a, Moves R (f a)) → Moves R (x >>= f) :=
    fun hx hf => moves_bind trans hx hf
  have PR : Moves R primary := B (RS _) (fun _ => moves_requestStack refl _)
  have SR : Moves R secondary := B (RS _) (fun _ => moves_requestStack refl _)
  have OS : Moves R operandSize := moves_operandSize refl
  have PN : ∀ i n, Moves R (popN i n) := fun i n => moves_popN refl trans (pop i) n
  have PA : ∀ i bs, Moves R (pushAll i bs) := fun i bs => moves_pushAll refl trans (push i) bs
  have SM : ∀ {a : Action Advance}, Moves R a → settle a s = .next t → R s t :=
    fun ha h => settle_moves refl trans fault inc ha h
  have HS : Moves R (writeStatus .halted) := fun s => halt s
  have HP : Moves R haltPhase := by
    refine B (RS _) (fun c => ?_)
    cases c
    · exact B HS (fun _ => P _)
    · exact B inc (fun _ => B HS (fun _ => P _))
  have TJ : Moves R takeJump := by
    intro s
    have := jump s
    simp only [takeJump, readState_bind, writePc_bind]
    cases s.cfg.jumpPostIncrement <;> exact this
  have CJ : ∀ d, Moves R (compareJump d) := fun d =>
    B OS (fun _ => B PR (fun i => B SR (fun j =>
      B (moves_peekOperands refl trans (pop i) (pop j) (push i) (push j) _) (fun pq => by split; exact TJ; exact P _))))
  have PSel : ∀ n, i ∈ [Instr.psa, .psb, .psc, .psd] → Moves R (selectPrimary n) := fun n hi =>
    B (RS _) (fun _ => B (ps _ hi) (fun _ => P _))
  have SSel : ∀ n, i ∈ [Instr.ssa, .ssb, .ssc, .ssd] → Moves R (selectSecondary n) := fun n hi =>
    B (RS _) (fun _ => B (ss _ hi) (fun _ => P _))
  have OSel : ∀ v, v = 1 ∨ v = 2 ∨ v = 4 → i ∈ [Instr.os1, .os2, .os4] → Moves R (selectSize v) := fun v hv hi =>
    B (os v hv hi) (fun _ => P _)
  cases i with
  | os1 => exact SM (OSel _ (by simp) (by simp)) h
  | os2 => exact SM (OSel _ (by simp) (by simp)) h
  | os4 => exact SM (OSel _ (by simp) (by simp)) h
  | psa => exact SM (PSel _ (by simp)) h
  | psb => exact SM (PSel _ (by simp)) h
  | psc => exact SM (PSel _ (by simp)) h
  | psd => exact SM (PSel _ (by simp)) h
  | ssa => exact SM (SSel _ (by simp)) h
  | ssb => exact SM (SSel _ (by simp)) h
  | ssc => exact SM (SSel _ (by simp)) h
  | ssd => exact SM (SSel _ (by simp)) h
  | pop =>
    exact SM (B OS (fun _ => B PR (fun _ => B (PN _ _) (fun _ => B (RS _) (fun _ => B (RS _) (fun _ => B (RS _)
      (fun _ => B (tmp rfl _) (fun _ => P _)))))))) h
  | push => exact SM (B OS (fun _ => B PR (fun _ => B (RS _) (fun _ => B (PA _ _) (fun _ => P _))))) h
  | dup =>
    exact SM (B OS (fun _ => B PR (fun _ => B (PN _ _) (fun _ => B (PA _ _) (fun _ => B (PA _ _) (fun _ => P _)))))) h
  | set =>
    refine SM (a := setPhase) (fun s => ?_) h
    cases hl : legalSize s.os with
    | none => rw [setPhase, bind_error (operandSize_error hl)]; exact refl s
    | some n => rw [setPhase, bind_ok (operandSize_ok hl)]; exact set rfl s n hl
  | jmp => exact SM TJ h
  | jl => exact SM (CJ _) h
  | je => exact SM (CJ _) h
  | halt => exact SM HP h
  | nop b => exact SM (P _) h
  | lit b => exact SM (B PR (fun _ => B (push _ _) (fun _ s => lit ⟨b, rfl⟩ s))) h

/-- What a step from a running state can be: a fetch fault, or the meaning of the decoded instruction (R100). -/
theorem step_cases {s t : State} (h : step s = .next t) :
    s.status = .running ∧
      ((1024 ≤ s.pc ∧ t = takeFault .programCounterOutOfBounds s) ∨
        (s.pc < 1024 ∧ exec (decode s.cfg.opcodeMap s.sc (Memory.read s.mem s.pc)) s = .next t)) := by
  unfold step at h
  split at h
  · cases h
  · cases h
  · rename_i hr
    refine ⟨hr, ?_⟩
    unfold fetch at h
    by_cases hp : s.pc < 1024
    · rw [if_pos hp] at h
      exact Or.inr ⟨hp, h⟩
    · rw [if_neg hp] at h
      cases h
      exact Or.inl ⟨by omega, rfl⟩

end Sys2Proof.Machine
end

