-- ==== Sys2Proof/Laws/HostInterface.lean ====
section
/-! SUPPORT. What each move of the host answers, when a step fetches, and that CORE holds the reset state as long
as reset is held. -/

namespace Sys2Proof.Machine

@[simp] theorem hostAct_assertReset (b : Block) : hostAct .assertReset b = .next ⟨takeReset b.core, true⟩ := rfl

@[simp] theorem hostAct_releaseReset (b : Block) : hostAct .releaseReset b = .next ⟨b.core, false⟩ := rfl

theorem mayLoad_iff (b : Block) : mayLoad b = true ↔ b.rst = true ∨ b.core.status ≠ .running := by
  simp [mayLoad, isTerminal]

/-- All that a load can do. -/
theorem hostAct_load (file : List Byte) (b : Block) :
    hostAct (.load file) b =
      if mayLoad b then .next ⟨{ b.core with mem := loadImage file }, b.rst⟩ else .refused .loadWhileRunning := rfl

/-- All that a read of the report can do. -/
theorem hostAct_readReport (b : Block) :
    hostAct .readReport b = if b.core.status ≠ .running then .next b else .refused .reportWhileRunning := by
  simp [hostAct, isTerminal]

/-- While reset is held CORE takes the reset values and no step. -/
theorem clock_held {b : Block} (h : b.rst = true) : b.clock = .next ⟨takeReset b.core, true⟩ := by
  simp [Block.clock, stepOrReset, h]

/-- Once reset is released CORE takes its step. -/
theorem clock_released {b : Block} {t : State} (h : b.rst = false) (hs : step b.core = .next t) :
    b.clock = .next ⟨t, false⟩ := by
  simp [Block.clock, stepOrReset, h, hs]

theorem fetches_iff (b : Block) :
    fetches b = true ↔ b.rst = false ∧ b.core.status = .running ∧ b.core.pc < 1024 := by
  simp [fetches]

/-- `ev_valid` is 1 exactly where a step fetches. -/
theorem evValidPort_eq_fetches (b : Block) : evValidPort b = fetches b := by
  obtain ⟨s, rst⟩ := b
  cases rst
  · cases hs : s.status with
    | running =>
      by_cases hp : s.pc < 1024
      · cases hm : modeOf s.sc <;> simp [evValidPort, Block.event, eventOf, fetches, fetch, hs, hp, hm]
      · simp [evValidPort, Block.event, eventOf, fetches, fetch, hs, hp]
    | halted => simp [evValidPort, Block.event, eventOf, fetches, hs]
    | faulted k => simp [evValidPort, Block.event, eventOf, fetches, hs]
  · rfl

/-- Reset changes nothing of a state it has made. -/
theorem takeReset_idem (s : State) : takeReset (takeReset s) = takeReset s := rfl

/-- As long as reset is held CORE holds the reset state (R200), whatever the host does meanwhile. -/
theorem hostAct_holdsReset {a : HostAction} {b c : Block} (h : hostAct a b = .next c)
    (hb : b.rst = true → takeReset b.core = b.core) : c.rst = true → takeReset c.core = c.core := by
  cases a with
  | assertReset => cases h; exact fun _ => rfl
  | releaseReset => cases h; exact fun h => nomatch h
  | load file =>
    rw [hostAct_load] at h
    split at h <;> cases h
    intro hr
    have := hb hr
    rw [takeReset_eq] at this ⊢
    rw [← this]
  | readReport =>
    rw [hostAct_readReport] at h
    split at h <;> cases h
    exact hb

end Sys2Proof.Machine
end

