-- ==== Sys2Proof/Laws/PerInstr.lean ====
section
/-! SUPPORT. One law per instruction, about the instruction as syntax: it is read in its own mode only
(30_encoding.md R82, R87), and its row's byte is the byte it was read from (R83, R86, R148). -/

namespace Sys2Proof.Laws

/-- What decoding to an instruction says of the mode and of the byte. -/
theorem decode_mode_encode (m : OpcodeMap) (sc : Nat) (b : Byte) :
    (decode m sc b).mode = modeOf sc ∧ encode m (decode m sc b) = b := by
  unfold decode
  cases hm : modeOf sc with
  | literal => exact ⟨rfl, rfl⟩
  | decode =>
    simp only [decodeOpcode]
    cases hf : m.rows.find? (fun r => r.2 == b) with
    | none => exact ⟨rfl, rfl⟩
    | some r =>
      have hb : r.2 = b := by simpa using List.find?_some hf
      have hr := List.mem_of_find?_eq_some hf
      have key : ∀ r ∈ m.rows, r.1.mode = .decode ∧ encode m r.1 = r.2 := by
        simp [OpcodeMap.rows, Instr.mode, encode]
      exact ⟨(key r hr).1, (key r hr).2.trans hb⟩

namespace ReadInOwnMode

/-- Whoever decodes a byte to `i` was in the mode of `i`'s row, and the byte is `i`'s. -/
def Statement (i : Instr) : Prop :=
  ∀ (m : OpcodeMap) (sc : Nat) (b : Byte), decode m sc b = i → modeOf sc = i.mode ∧ encode m i = b

theorem of_decode (i : Instr) : Statement i := by
  rintro m sc b rfl
  exact ⟨(decode_mode_encode m sc b).1.symm, (decode_mode_encode m sc b).2⟩

theorem os1 : Statement .os1 := of_decode _
theorem os2 : Statement .os2 := of_decode _
theorem os4 : Statement .os4 := of_decode _
theorem psa : Statement .psa := of_decode _
theorem psb : Statement .psb := of_decode _
theorem psc : Statement .psc := of_decode _
theorem psd : Statement .psd := of_decode _
theorem ssa : Statement .ssa := of_decode _
theorem ssb : Statement .ssb := of_decode _
theorem ssc : Statement .ssc := of_decode _
theorem ssd : Statement .ssd := of_decode _
theorem pop : Statement .pop := of_decode _
theorem push : Statement .push := of_decode _
theorem dup : Statement .dup := of_decode _
theorem set : Statement .set := of_decode _
theorem jmp : Statement .jmp := of_decode _
theorem jl : Statement .jl := of_decode _
theorem je : Statement .je := of_decode _
theorem halt : Statement .halt := of_decode _
theorem nop (b : Byte) : Statement (.nop b) := of_decode _
theorem lit (b : Byte) : Statement (.lit b) := of_decode _

end ReadInOwnMode

end Sys2Proof.Laws
end

