-- ==== Sys2Proof/Laws/Phases.lean ====
section
/-! SUPPORT. What the execute phase of each instruction answers, said once: what it leaves, which faults it raises and
when, and where it sends the end of the step. -/

namespace Sys2Proof.Machine

/-- From every state with `P`, the action ends with a value and `Q`, or with a fault and `E`. -/
def Triple {α : Type} (P : State → Prop) (a : Action α) (Q : α → State → Prop) (E : FaultKind → State → Prop) : Prop :=
  ∀ s, P s → match a s with
    | .ok x t => Q x t
    | .error k t => E k t

variable {P : State → Prop} {E : FaultKind → State → Prop}

theorem triple_bind {α β : Type} {x : Action α} {f : α → Action β} {Q : α → State → Prop} {Q' : β → State → Prop}
    (hx : Triple P x Q E) (hf : ∀ a, Triple (Q a) (f a) Q' E) : Triple P (x >>= f) Q' E := by
  intro s hs
  have h := hx s hs
  cases e : x s with
  | ok a t =>
    rw [bind_ok e]
    rw [e] at h
    exact hf a t h
  | error k t =>
    rw [bind_error e]
    rw [e] at h
    exact h

theorem triple_pure {α : Type} {Q : α → State → Prop} (a : α) (h : ∀ s, P s → Q a s) : Triple P (pure a : Action α) Q E :=
  h

theorem triple_read {α : Type} (f : State → α) : Triple P (readState f) (fun _ => P) E :=
  fun _ h => h

theorem triple_conseq {α : Type} {P' : State → Prop} {Q Q' : α → State → Prop} {a : Action α} (h : Triple P a Q E)
    (hp : ∀ s, P' s → P s) (hq : ∀ x s, Q x s → Q' x s) : Triple P' a Q' E := by
  intro s hs
  have g := h s (hp s hs)
  cases e : a s with
  | ok x t => rw [e] at g; exact hq x t g
  | error k t => rw [e] at g; exact g

/-- A property the action keeps holds whatever it answers. -/
theorem triple_popN {i : StackIndex} (h : Triple P (popByte i) (fun _ => P) E) (n : Nat) :
    Triple P (popN i n) (fun _ => P) E := by
  induction n with
  | zero => exact triple_pure _ (fun _ h => h)
  | succ n ih => exact triple_bind h (fun _ => triple_bind ih (fun _ => triple_pure _ (fun _ h => h)))

theorem triple_pushAll {i : StackIndex} (h : ∀ b, Triple P (pushByte i b) (fun _ => P) E) (bs : List Byte) :
    Triple P (pushAll i bs) (fun _ => P) E := by
  induction bs with
  | nil => exact triple_pure _ (fun _ h => h)
  | cons b bs ih => exact triple_bind (h b) (fun _ => ih)

/-- The execute phase of each instruction. -/
def phaseOf : Instr → Action Advance
  | .os1 => selectSize 1
  | .os2 => selectSize 2
  | .os4 => selectSize 4
  | .psa => selectPrimary .a
  | .psb => selectPrimary .b
  | .psc => selectPrimary .c
  | .psd => selectPrimary .d
  | .ssa => selectSecondary .a
  | .ssb => selectSecondary .b
  | .ssc => selectSecondary .c
  | .ssd => selectSecondary .d
  | .pop => popPhase
  | .push => pushPhase
  | .dup => dupPhase
  | .set => setPhase
  | .jmp => takeJump
  | .jl => compareJump isLess
  | .je => compareJump isEqual
  | .halt => haltPhase
  | .nop _ => pure .increment
  | .lit b => litPhase b

theorem exec_eq_settle (i : Instr) (s : State) : exec i s = settle (phaseOf i) s := by
  cases i <;> rfl

/-- The instructions that take a jump. -/
def jumps : List Instr := [.jmp, .jl, .je]

/-- What no execute phase but HALT's changes, jumps apart: of the state `s0` it began in. -/
structure Kept (i : Instr) (s0 t : State) : Prop where
  status : t.status = s0.status
  cfg : t.cfg = s0.cfg
  tar : t.tar = s0.tar
  /-- Stacks that `i` does not reach keep everything. -/
  stk : ∀ j : StackIndex, s0.ps ≠ j.val → (i ∈ [Instr.jl, .je] → s0.ss ≠ j.val) →
    t.stk.get j = s0.stk.get j

/-- When an execute phase raises a fault (60_exceptions.md R182 to R185). -/
def RaisesOnly (i : Instr) (s0 : State) (k : FaultKind) : Prop :=
  k ∈ mayRaise i ∧ k ≠ .programCounterOutOfBounds ∧
    (k = .invalidOperandSize → s0.os ≠ 1 ∧ s0.os ≠ 2 ∧ s0.os ≠ 4) ∧
    (k = .invalidStackSelector → 4 ≤ s0.ps ∨ 4 ≤ s0.ss)

/-- Where an execute phase sends the end of its step (40_dispatcher.md R105; 43_jumps.md R165). -/
def Goes (i : Instr) (s0 : State) (adv : Advance) (t : State) : Prop :=
  (adv = .increment ∧ t.pc = s0.pc) ∨
    (i ∈ jumps ∧ t.pc = s0.tar.toNat ∧ adv = (if s0.cfg.jumpPostIncrement then .increment else .stay))

/-- While an execute phase runs: what it has kept, the registers its checks test, and the `pc` it began with. -/
structure During (i : Instr) (s0 t : State) : Prop extends Kept i s0 t where
  pc : t.pc = s0.pc
  os : t.os = s0.os
  ps : t.ps = s0.ps
  ss : t.ss = s0.ss

theorem During.start (i : Instr) (s : State) : During i s s :=
  { status := rfl, cfg := rfl, tar := rfl, stk := fun _ _ _ => rfl, pc := rfl, os := rfl, ps := rfl, ss := rfl }

/-- A write of a stack the instruction may reach. -/
theorem During.put {i : Instr} {s0 t : State} (h : During i s0 t) {j : StackIndex}
    (hj : s0.ps = j.val ∨ (i ∈ [Instr.jl, .je] ∧ s0.ss = j.val)) (st : ByteStack) :
    During i s0 { t with stk := t.stk.put j st } :=
  { h with
    stk := fun l h1 h2 => by
      have : l ≠ j := by
        rintro rfl
        rcases hj with hj | ⟨hi, hj⟩
        · exact h1 hj
        · exact h2 hi hj
      simp only [StackBank.get_put_of_ne _ this]
      exact h.stk l h1 h2 }

/-- What a fault in the execute phase of `i` leaves: everything written so far, and `pc` as it was (R187, R205). -/
abbrev FaultLeaves (i : Instr) (s0 : State) (k : FaultKind) (t : State) : Prop := RaisesOnly i s0 k ∧ During i s0 t

section
variable {i : Instr} {s0 : State}

theorem triple_popByte {j : StackIndex}
    (hj : s0.ps = j.val ∨ (i ∈ [Instr.jl, .je] ∧ s0.ss = j.val))
    (hk : .stackUnderflow ∈ mayRaise i) :
    Triple (During i s0) (popByte j) (fun _ => During i s0) (FaultLeaves i s0) := by
  intro t ht
  by_cases h : 0 < (t.stk.get j).size.val
  · rw [popByte_ok h]; exact ht.put hj _
  · rw [popByte_empty (by omega)]; exact ⟨⟨hk, by simp⟩, ht⟩

/-- A push that raises nothing but StackOverflow, which `i` can raise. -/
theorem triple_pushByte {j : StackIndex}
    (hj : s0.ps = j.val ∨ (i ∈ [Instr.jl, .je] ∧ s0.ss = j.val))
    (hk : .stackOverflow ∈ mayRaise i) (b : Byte) :
    Triple (During i s0) (pushByte j b) (fun _ => During i s0) (FaultLeaves i s0) := by
  intro t ht
  by_cases h : (t.stk.get j).size.val < 1024
  · obtain ⟨st, hp, -⟩ := ByteStack.push_ok h b
    rw [pushByte_ok hp]; exact ht.put hj _
  · rw [pushByte_full (by omega)]; exact ⟨⟨hk, by simp⟩, ht⟩

theorem triple_operandSize (hk : .invalidOperandSize ∈ mayRaise i) :
    Triple (During i s0) operandSize (fun _ => During i s0) (FaultLeaves i s0) := by
  intro t ht
  cases h : legalSize t.os with
  | some n => rw [operandSize_ok h]; exact ht
  | none =>
    rw [operandSize_error h]
    refine ⟨⟨hk, by simp, fun _ => ?_, by simp⟩, ht⟩
    rw [← ht.os]
    refine ⟨?_, ?_, ?_⟩ <;> intro e <;> rw [e] at h <;> cases h

theorem triple_primary (hk : .invalidStackSelector ∈ mayRaise i) :
    Triple (During i s0) primary (fun j t => During i s0 t ∧ s0.ps = j.val) (FaultLeaves i s0) := by
  intro t ht
  by_cases h : t.ps < 4
  · rw [primary_ok (i := ⟨t.ps, h⟩) rfl]
    exact ⟨ht, ht.ps.symm⟩
  · rw [primary_error (by omega)]
    exact ⟨⟨hk, by simp, by simp, fun _ => .inl (by rw [← ht.ps]; omega)⟩, ht⟩

theorem triple_secondary (hk : .invalidStackSelector ∈ mayRaise i) :
    Triple (During i s0) secondary (fun j t => During i s0 t ∧ s0.ss = j.val) (FaultLeaves i s0) := by
  intro t ht
  by_cases h : t.ss < 4
  · rw [secondary_ok (i := ⟨t.ss, h⟩) rfl]
    exact ⟨ht, ht.ss.symm⟩
  · rw [secondary_error (by omega)]
    exact ⟨⟨hk, by simp, by simp, fun _ => .inr (by rw [← ht.ss]; omega)⟩, ht⟩

/-- A fact of the value only, moved out of the precondition. -/
theorem triple_given {α : Type} {p : Prop} {a : Action α} {Q : α → State → Prop} (h : p → Triple P a Q E) :
    Triple (fun s => P s ∧ p) a Q E := fun s hs => h hs.2 s hs.1

end

/-- Peeks cannot overflow, so JL and JE raise StackUnderflow only once their checks have passed (R141, R160, R185). -/
theorem triple_peekOperands {i : Instr} {s0 : State} (hi : i ∈ [Instr.jl, .je]) {j l : StackIndex}
    (hj : s0.ps = j.val) (hl : s0.ss = l.val) (hk : .stackUnderflow ∈ mayRaise i) (n : Nat) :
    Triple (During i s0) (peekOperands j l n) (fun _ => During i s0) (FaultLeaves i s0) := by
  have one : ∀ x : StackIndex, (s0.ps = x.val ∨ (i ∈ [Instr.jl, .je] ∧ s0.ss = x.val)) →
      Triple (During i s0) (peek x n) (fun _ => During i s0) (FaultLeaves i s0) := by
    intro x hx t ht
    by_cases h : n ≤ (t.stk.get x).size.val
    · obtain ⟨y, hy, -⟩ := peek_reads h
      rw [hy]; exact ht.put hx _
    · rw [peek_underflow (by omega)]; exact ⟨⟨hk, by simp⟩, ht.put hx _⟩
  have both : Triple (During i s0) (peekBoth j l n) (fun _ => During i s0) (FaultLeaves i s0) :=
    triple_bind (one j (.inl hj)) (fun _ => triple_bind (one l (.inr ⟨hi, hl⟩)) (fun _ => triple_pure _ (fun _ h => h)))
  have inter : Triple (During i s0) (peekInterleaved j n) (fun _ => During i s0) (FaultLeaves i s0) := by
    intro t ht
    by_cases h1 : n ≤ (t.stk.get j).size.val
    · by_cases h2 : n ≤ (t.stk.get j).size.val - n
      · obtain ⟨x, hx, ex, -⟩ := pushBack_reads (i := j) (n := n) (st := (t.stk.get j).drop n)
          (s := { t with stk := t.stk.put j (((t.stk.get j).drop n).drop n) }) (by simpa using h2) (by simp)
        obtain ⟨y, hy, -⟩ := pushAll_ok (i := j) (bs := ((List.range n).map (t.stk.get j).topByte).reverse)
          (s := { t with stk := t.stk.put j x }) (by
            have := (t.stk.get j).size.isLt
            have := congrArg Fin.val ex
            simp at this ⊢
            omega)
        have e : peekInterleaved j n t = .ok ((List.range n).map (t.stk.get j).topByte,
            (List.range n).map ((t.stk.get j).drop n).topByte) { t with stk := t.stk.put j y } := by
          rw [peekInterleaved, bind_ok (popN_ok h1), bind_ok (popN_ok (by simpa using h2))]
          simp only [StackBank.get_put_self, StackBank.put_put] at hx hy ⊢
          rw [bind_ok hx, pushBack, bind_ok hy]
          rfl
        rw [e]; exact ht.put (.inl hj) _
      · have e : peekInterleaved j n t = .error .stackUnderflow { t with stk := t.stk.put j (((t.stk.get j).drop n).drop n) } := by
          rw [peekInterleaved, bind_ok (popN_ok h1), bind_error (popN_underflow (by simp; omega))]
          simp only [StackBank.get_put_self, StackBank.put_put]
        rw [e]; exact ⟨⟨hk, by simp⟩, ht.put (.inl hj) _⟩
    · rw [peekInterleaved, bind_error (popN_underflow (by omega))]
      exact ⟨⟨hk, by simp⟩, ht.put (.inl hj) _⟩
  refine triple_bind (triple_read _) (fun a => ?_)
  cases a with
  | sequential => exact both
  | interleaved =>
    simp only
    split
    · exact inter
    · exact both

/-- What an execute phase that raised no fault leaves. -/
abbrev EndLeaves (i : Instr) (s0 : State) (adv : Advance) (t : State) : Prop := Kept i s0 t ∧ Goes i s0 adv t

/-- Every execute phase but HALT's, from any state: what it keeps, where it sends the end of the step, which faults it
raises and when. -/
theorem phase_spec (i : Instr) (hi : i ≠ .halt) (s0 : State) :
    Triple (During i s0) (phaseOf i) (EndLeaves i s0) (FaultLeaves i s0) := by
  have up : ∀ (t : State), During i s0 t → EndLeaves i s0 .increment t := fun t h => ⟨h.toKept, .inl ⟨rfl, h.pc⟩⟩
  have fin : Triple (During i s0) (pure .increment) (EndLeaves i s0) (FaultLeaves i s0) := triple_pure _ up
  have TJ : i ∈ jumps → Triple (During i s0) takeJump (EndLeaves i s0) (FaultLeaves i s0) := by
    intro hj t ht
    have k : Kept i s0 { t with pc := t.tar.toNat } :=
      { status := ht.status, cfg := ht.cfg, tar := ht.tar, stk := ht.stk }
    have c := ht.cfg
    simp only [takeJump, readState_bind, writePc_bind]
    cases hb : t.cfg.jumpPostIncrement
    · exact ⟨k, .inr ⟨hj, congrArg BitVec.toNat ht.tar, by rw [← c, hb]; rfl⟩⟩
    · exact ⟨k, .inr ⟨hj, congrArg BitVec.toNat ht.tar, by rw [← c, hb]; rfl⟩⟩
  have PS : ∀ n, Triple (During i s0) (selectPrimary n) (EndLeaves i s0) (FaultLeaves i s0) := fun n t ht =>
    ⟨{ status := ht.status, cfg := ht.cfg, tar := ht.tar, stk := ht.stk }, .inl ⟨rfl, ht.pc⟩⟩
  have SS : ∀ n, Triple (During i s0) (selectSecondary n) (EndLeaves i s0) (FaultLeaves i s0) := fun n t ht =>
    ⟨{ status := ht.status, cfg := ht.cfg, tar := ht.tar, stk := ht.stk }, .inl ⟨rfl, ht.pc⟩⟩
  have OS : ∀ v, Triple (During i s0) (selectSize v) (EndLeaves i s0) (FaultLeaves i s0) := fun v t ht =>
    ⟨{ status := ht.status, cfg := ht.cfg, tar := ht.tar, stk := ht.stk }, .inl ⟨rfl, ht.pc⟩⟩
  have CJ : i ∈ [Instr.jl, .je] → i ∈ jumps → .invalidOperandSize ∈ mayRaise i → .invalidStackSelector ∈ mayRaise i →
      .stackUnderflow ∈ mayRaise i → ∀ d, Triple (During i s0) (compareJump d) (EndLeaves i s0) (FaultLeaves i s0) := by
    intro h hj h1 h2 h3 d
    refine triple_bind (triple_operandSize h1) (fun n => triple_bind (triple_primary h2) (fun a => triple_given (fun ha =>
      triple_bind (triple_secondary h2) (fun b => triple_given (fun hb =>
        triple_bind (triple_peekOperands h ha hb h3 _) (fun pq => ?_))))))
    split
    · exact TJ hj
    · exact fin
  cases i with
  | os1 => exact OS _
  | os2 => exact OS _
  | os4 => exact OS _
  | psa => exact PS _
  | psb => exact PS _
  | psc => exact PS _
  | psd => exact PS _
  | ssa => exact SS _
  | ssb => exact SS _
  | ssc => exact SS _
  | ssd => exact SS _
  | pop =>
    refine triple_bind (triple_operandSize (by decide)) (fun n => triple_bind (triple_primary (by decide)) (fun a =>
      triple_given (fun ha => triple_bind (triple_popN (triple_popByte (.inl ha) (by decide)) _) (fun bs t ht => ?_))))
    exact ⟨{ status := ht.status, cfg := ht.cfg, tar := ht.tar, stk := ht.stk }, .inl ⟨rfl, ht.pc⟩⟩
  | push =>
    exact triple_bind (triple_operandSize (by decide)) (fun n => triple_bind (triple_primary (by decide)) (fun a =>
      triple_given (fun ha => triple_bind (triple_read _) (fun v =>
        triple_bind (triple_pushAll (triple_pushByte (.inl ha) (by decide)) _) (fun _ => fin)))))
  | dup =>
    exact triple_bind (triple_operandSize (by decide)) (fun n => triple_bind (triple_primary (by decide)) (fun a =>
      triple_given (fun ha => triple_bind (triple_popN (triple_popByte (.inl ha) (by decide)) _) (fun bs =>
        triple_bind (triple_pushAll (triple_pushByte (.inl ha) (by decide)) _) (fun _ =>
          triple_bind (triple_pushAll (triple_pushByte (.inl ha) (by decide)) _) (fun _ => fin))))))
  | set =>
    refine triple_bind (triple_operandSize (by decide)) (fun n t ht => ?_)
    exact ⟨{ status := ht.status, cfg := ht.cfg, tar := ht.tar, stk := ht.stk }, .inl ⟨rfl, ht.pc⟩⟩
  | jmp => exact TJ (by decide)
  | jl => exact CJ (by decide) (by decide) (by decide) (by decide) (by decide) _
  | je => exact CJ (by decide) (by decide) (by decide) (by decide) (by decide) _
  | halt => exact absurd rfl hi
  | nop b => exact fin
  | lit b =>
    refine triple_bind (triple_primary (by simp [mayRaise])) (fun a => triple_given (fun ha =>
      triple_bind (triple_pushByte (.inl ha) (by simp [mayRaise]) b) (fun _ t ht => ?_)))
    exact ⟨{ status := ht.status, cfg := ht.cfg, tar := ht.tar, stk := ht.stk }, .inl ⟨rfl, ht.pc⟩⟩

/-- How a step of any instruction but HALT ends (R100, R105): with a fault of the execute phase, without an increment, with
one, or with the fault of the increment. -/
theorem exec_ends (i : Instr) (hi : i ≠ .halt) {s t : State} (hr : s.status = .running) (h : exec i s = .next t) :
    (∃ k u, t = takeFault k u ∧ RaisesOnly i s k ∧ During i s u) ∨
      ∃ adv u, Kept i s u ∧ Goes i s adv u ∧
        ((adv = .stay ∧ t = u) ∨
          (adv = .increment ∧ u.pc + 1 < 1024 ∧ t = { u with pc := u.pc + 1 }) ∨
          (adv = .increment ∧ 1024 ≤ u.pc + 1 ∧ t = takeFault .programCounterOutOfBounds u)) := by
  rw [exec_eq_settle] at h
  have g := phase_spec i hi s s (During.start i s)
  cases e : phaseOf i s with
  | error k u =>
    rw [e] at g
    rw [settle_error e] at h
    cases h
    exact .inl ⟨k, u, rfl, g⟩
  | ok adv u =>
    rw [e] at g
    refine .inr ⟨adv, u, g.1, g.2, ?_⟩
    cases adv with
    | stay =>
      rw [settle_stay e] at h
      cases h
      exact .inl ⟨rfl, rfl⟩
    | increment =>
      have q := settle_increment e (g.1.status.trans hr)
      by_cases hp : u.pc < 1023
      · rw [q.1 hp] at h
        cases h
        exact .inr (.inl ⟨rfl, by omega, rfl⟩)
      · rw [q.2 (by omega)] at h
        cases h
        exact .inr (.inr ⟨rfl, by omega, rfl⟩)

end Sys2Proof.Machine
end

