-- ==== Sys2Proof/Tests/Slice0.lean ====
section
/-! SUPPORT. Tests on fixed values: the ill-formed terms WellFormed refuses, bytes written out from the spec's encoding
tables, single steps of the spec's own vectors (95_test_vectors.md, cited as V<n>), and for each obligation with hypotheses
a state that meets them. -/

namespace Sys2Proof.Tests

open Sys2Proof.Machine

/-! ### Helpers -/

/-- A stack from its bytes, the deepest first. -/
def stackOf (bs : List Byte) : ByteStack := ⟨imageFrom 0 bs, Fin.ofNat 1025 bs.length⟩

/-- A stack of `n` zero bytes. -/
def zeros (n : Nat) : ByteStack := ⟨[], Fin.ofNat 1025 n⟩

/-- The reset state with these stacks. -/
def withStacks (a b c d : ByteStack) : State := { State.reset with stk := ⟨a, b, c, d⟩ }

/-- The reset state with this stack A. -/
def withA (a : ByteStack) : State := withStacks a ByteStack.empty ByteStack.empty ByteStack.empty

/-- The reset state with these stacks A and B, and `ss` on B. -/
def withAB (a b : ByteStack) : State := { withStacks a b ByteStack.empty ByteStack.empty with ss := 1 }

/-- Something of the next state, if there is one. -/
def seen {α : Type} (o : Host.Outcome State Fault Refusal) (f : State → α) : Option α :=
  match o with
  | .next t => some (f t)
  | .fault _ => none
  | .refused _ => none

/-! ### WellFormed refuses -/

theorem test_wf_accepts_the_defaults : defaultConfig.wf = true := by decide

theorem test_wf_refuses_two_opcodes_of_one_value : { defaultOpcodeMap with je := 0x61 }.distinct = false := by decide

theorem test_wf_refuses_another_value_for_a_source_opcode :
    { defaultOpcodeMap with halt := 0xFE }.keepsSource = false := by decide

theorem test_wf_refuses_that_opcode_map : { defaultOpcodeMap with je := 0x61 }.wf = false := by decide

theorem test_wf_refuses_two_names_of_one_stack : StackNames.wf ⟨0, 1, 2, 2⟩ = false := by decide

theorem test_wf_refuses_two_faults_of_one_code : FaultCodes.wf ⟨1, 2, 3, 4, 4⟩ = false := by decide

theorem test_wf_refuses_the_code_of_a_normal_halt : FaultCodes.wf ⟨0, 1, 2, 3, 4⟩ = false := by decide

/-- One bit too few for `tar`, a selector, a size, a literal count, a fill count (D3). -/
theorem test_wf_refuses_narrow_widths :
    [(⟨15, 2, 3, 3, 11⟩ : RegisterWidths), ⟨16, 1, 3, 3, 11⟩, ⟨16, 2, 2, 3, 11⟩, ⟨16, 2, 3, 2, 11⟩,
      ⟨16, 2, 3, 3, 10⟩].map RegisterWidths.wf = [false, false, false, false, false] := by decide

/-- The least widths of D3. -/
theorem test_wf_accepts_the_narrowest_widths : RegisterWidths.wf ⟨16, 2, 3, 3, 11⟩ = true := by decide

theorem test_wf_refuses_a_configuration_with_bad_names :
    { defaultConfig with stackName := ⟨0, 0, 2, 3⟩ }.wf = false := by decide

theorem test_wf_refuses_an_opcode_as_nop : (Instr.nop 0xFF).wf defaultOpcodeMap = false := by decide

/-! ### Decoding: bytes from 30_encoding.md R83 and R84, bit by bit -/

theorem test_decode_os1 : decode defaultOpcodeMap 0 0b00000001 = .os1 := by decide
theorem test_decode_psa : decode defaultOpcodeMap 0 0b00011010 = .psa := by decide
theorem test_decode_ssd : decode defaultOpcodeMap 0 0b00101101 = .ssd := by decide
theorem test_decode_pop : decode defaultOpcodeMap 0 0b01010000 = .pop := by decide
theorem test_decode_set : decode defaultOpcodeMap 0 0b01011110 = .set := by decide
theorem test_decode_jl : decode defaultOpcodeMap 0 0b01100001 = .jl := by decide
theorem test_decode_halt : decode defaultOpcodeMap 0 0b11111111 = .halt := by decide
theorem test_decode_nop : decode defaultOpcodeMap 0 0b00110111 = .nop 0b00110111 := by decide
theorem test_decode_lit : decode defaultOpcodeMap 1 0b01010000 = .lit 0b01010000 := by decide
theorem test_decode_no_byte : decodeBytes defaultOpcodeMap 0 [] = .error .noByte := by decide

theorem test_table_word_pop : decodeTableWord 8 0x50 = some .pop := by decide

theorem test_fetch_word_runs_it : seen (step (State.reset.withFetchWord 8 0x04)) State.os = some 4 := by decide

/-! ### Single steps -/

/-- V12b. -/
theorem test_os1 : seen (exec .os1 { State.reset with os := 4 }) (fun t => (t.os, t.pc)) = some (1, 1) := by decide

/-- R129's example. -/
theorem test_os2 : seen (exec .os2 State.reset) (fun t => (t.os, t.pc)) = some (2, 1) := by decide

/-- V12, first step. -/
theorem test_os4 : seen (exec .os4 State.reset) (fun t => (t.os, t.pc)) = some (4, 1) := by decide

/-- V12a: a select tests nothing. -/
theorem test_psa : seen (exec .psa { State.reset with ps := 9, os := 0 }) (fun t => (t.ps, t.os, t.status)) =
    some (0, 0, .running) := by decide

/-- R121's example. -/
theorem test_psb : seen (exec .psb { State.reset with pc := 3, ps := 2 }) (fun t => (t.ps, t.pc)) = some (1, 4) := by decide

/-- R122's example. -/
theorem test_psc : seen (exec .psc { State.reset with pc := 9, ps := 3 }) (fun t => (t.ps, t.pc)) = some (2, 10) := by decide

/-- R123's example, with the primary register apart from the secondary. -/
theorem test_psd : seen (exec .psd State.reset) (fun t => (t.ps, t.ss, t.pc)) = some (3, 0, 1) := by decide

/-- R124's example. -/
theorem test_ssa : seen (exec .ssa { State.reset with pc := 5, ss := 1 }) (fun t => (t.ss, t.pc)) = some (0, 6) := by decide

/-- R125's example. -/
theorem test_ssb : seen (exec .ssb { State.reset with pc := 6, ss := 2 }) (fun t => (t.ss, t.pc)) = some (1, 7) := by decide

/-- R126's example. -/
theorem test_ssc : seen (exec .ssc { State.reset with pc := 11, ss := 3 }) (fun t => (t.ss, t.pc)) = some (2, 12) := by decide

/-- R127's example, with the secondary register apart from the primary. -/
theorem test_ssd : seen (exec .ssd { State.reset with pc := 1000 }) (fun t => (t.ps, t.ss, t.pc)) =
    some (0, 3, 1001) := by decide

/-- V15: the third byte popped is dropped and the fourth lands twice. -/
theorem test_pop_four :
    seen (exec .pop { withA (stackOf [0x11, 0x22, 0x33, 0x44]) with os := 4 }) (fun t => (t.tmp, t.stk.stk0.size)) =
      some (0x11113344, 0) := by decide

/-- V17: the underflow leaves the stack empty and `tmp` as it was. -/
theorem test_pop_underflow :
    seen (exec .pop { withA (stackOf [0x11, 0x22, 0x33]) with os := 4, tmp := 0xDEADBEEF })
      (fun t => (t.tmp, t.stk.stk0.size, t.status, t.pc)) =
      some (0xDEADBEEF, 0, .faulted .stackUnderflow, 0) := by decide

/-- V20: the least significant byte lies deepest. -/
theorem test_push_four :
    seen (exec .push { State.reset with os := 4, ps := 1, tmp := 0x11113344 }) (fun t => t.stk.stk1) =
      some (stackOf [0x44, 0x33, 0x11, 0x11]) := by decide

/-- V20a: the bytes that fit are pushed. -/
theorem test_push_overflow :
    seen (exec .push { withStacks ByteStack.empty ByteStack.empty (zeros 1022) ByteStack.empty with
        os := 4, ps := 2, tmp := 0xAABBCCDD })
      (fun t => (t.stk.stk2.size, t.stk.stk2.data, t.status)) =
      some (1024, [(1022, 0xDD), (1023, 0xCC)], .faulted .stackOverflow) := by decide

/-- V27. -/
theorem test_dup_four :
    seen (exec .dup { withA (stackOf [0xAA, 0x11, 0x22, 0x33, 0x44]) with os := 4 }) (fun t => t.stk.stk0) =
      some (stackOf [0xAA, 0x11, 0x22, 0x33, 0x44, 0x11, 0x22, 0x33, 0x44]) := by decide +kernel

/-- V28. -/
theorem test_dup_underflow :
    seen (exec .dup { withA (stackOf [0x11]) with os := 2 }) (fun t => (t.stk.stk0.size, t.status)) =
      some (0, .faulted .stackUnderflow) := by decide

/-- R147: SET tests `os` and no selector. -/
theorem test_set : seen (exec .set { State.reset with os := 4, ps := 9 }) (fun t => (t.sc, t.pc, t.status)) =
    some (4, 1, .running) := by decide

/-- R183: a size of 3 is illegal. -/
theorem test_set_illegal_size : seen (exec .set { State.reset with os := 3 }) (fun t => (t.sc, t.pc, t.status)) =
    some (0, 0, .faulted .invalidOperandSize) := by decide

/-- V3. -/
theorem test_lit_fills_the_stack :
    seen (exec (.lit 0xAB) { withA (zeros 1023) with pc := 5, sc := 1 })
      (fun t => (t.stk.stk0.size, t.stk.stk0.data, t.sc, t.pc)) = some (1024, [(1023, 0xAB)], 0, 6) := by decide

/-- V4. -/
theorem test_lit_overflow :
    seen (exec (.lit 0xAB) { withA (zeros 1024) with pc := 5, sc := 1 }) (fun t => (t.stk.stk0, t.sc, t.pc, t.status)) =
      some (zeros 1024, 1, 5, .faulted .stackOverflow) := by decide

/-- R161's example. -/
theorem test_jmp : seen (exec .jmp { State.reset with pc := 12, ps := 9, os := 0 }) (fun t => (t.pc, t.status)) =
    some (1, .running) := by decide

/-- R161: a target of 1023 faults with `pc` equal to `tar`. -/
theorem test_jmp_beyond : seen (exec .jmp { State.reset with tar := 1023 }) (fun t => (t.pc, t.status)) =
    some (1023, .faulted .programCounterOutOfBounds) := by decide

/-- R162's third example: the top byte is the most significant. -/
theorem test_jl_not_taken :
    seen (exec .jl { withAB (stackOf [1, 3]) (stackOf [2, 0]) with os := 2, pc := 7, tar := 30 }) (fun t => (t.pc, t.stk)) =
      some (8, (withAB (stackOf [1, 3]) (stackOf [2, 0])).stk) := by decide +kernel

/-- R162's last example. -/
theorem test_jl_taken :
    seen (exec .jl { withAB (stackOf [0xFF, 0xFF, 0xFF, 0]) (stackOf [0, 0, 0, 1]) with os := 4, pc := 7, tar := 30 })
      State.pc = some 31 := by decide +kernel

/-- R163's example: equal tops. -/
theorem test_je_taken :
    seen (exec .je { withAB (stackOf [7]) (stackOf [7]) with pc := 9 }) State.pc = some 1 := by decide

/-- R163's example: no swap is applied. -/
theorem test_je_not_taken :
    seen (exec .je { withAB (stackOf [0x12, 0x34]) (stackOf [0x34, 0x12]) with os := 2, pc := 9 }) State.pc = some 10 := by
  decide +kernel

/-- V7. -/
theorem test_halt_at_the_end : seen (exec .halt { State.reset with pc := 1023 }) (fun t => (t.pc, t.status)) =
    some (1023, .halted) := by decide

/-- V7, with the other value of the parameter. -/
theorem test_halt_incrementing :
    seen (exec .halt { State.reset with pc := 1023, cfg := { defaultConfig with haltIncrementsPc := true } })
      (fun t => (t.pc, t.status)) = some (1023, .faulted .programCounterOutOfBounds) := by decide

/-- V5. -/
theorem test_nop : seen (exec (.nop 0x37) { State.reset with pc := 1022 }) (fun t => (t.pc, t.status)) =
    some (1023, .running) := by decide

/-- V6. -/
theorem test_nop_at_the_end : seen (exec (.nop 0) { State.reset with pc := 1023 }) (fun t => (t.pc, t.status)) =
    some (1023, .faulted .programCounterOutOfBounds) := by decide

/-- R44: a literal byte on the event port. -/
theorem test_event_port :
    let b : Block := ⟨{ State.reset with sc := 1, mem := [(0, 0xAB)] }, false⟩
    (evValidPort b, evKindPort b, evBytePort b) = (true, some 1, some 0xAB) := by decide

/-- R41: no step while reset is held, so no event and no fetch. -/
theorem test_ports_under_reset :
    evValidPort (powerOn defaultConfig) = false ∧ evKindPort (powerOn defaultConfig) = none ∧
      imemAddrPort (powerOn defaultConfig) = none := by decide

/-- R54: `Reset(1)` clears stack B, stale bytes too, and stack A not. -/
theorem test_reset_one_stack :
    (match resetStack 1 (withStacks (stackOf [1]) ⟨[(5, 9)], 3⟩ (zeros 0) (zeros 0)) with
      | .ok _ t => some t.stk
      | .error _ _ => none) = some ⟨stackOf [1], ByteStack.empty, zeros 0, zeros 0⟩ := by decide

/-! ### The hypotheses of the obligations can be met: each clause at a value where it begins or ends -/

theorem test_meets_decode_of_encode :
    defaultOpcodeMap.distinct = true ∧ ((Instr.nop 0).wf defaultOpcodeMap = true ∧ modeOf 0 = (Instr.nop 0).mode) ∧
      ((Instr.lit 0xFF).wf defaultOpcodeMap = true ∧ modeOf 255 = (Instr.lit 0xFF).mode) := by decide

theorem test_meets_every_byte :
    (0 : Nat) < 1 ∧ defaultOpcodeMap.distinct = true ∧ (Instr.halt, 0xFF#8) ∈ defaultOpcodeMap.rows ∧
      0xFE#8 ∉ defaultOpcodeMap.rows.map Prod.snd := by decide

/-- A state at the last address, in literal-capture mode. -/
def lastLiteral : State := { State.reset with pc := 1023, sc := 1 }

theorem test_meets_step_runs :
    lastLiteral.status = .running ∧ lastLiteral.pc < 1024 ∧ 0 < lastLiteral.sc ∧
      decodeBytes lastLiteral.cfg.opcodeMap lastLiteral.sc [Memory.read lastLiteral.mem lastLiteral.pc] =
        .ok (.lit 0, []) := by decide

theorem test_meets_fetch_outside :
    { State.reset with pc := 1024 }.status = .running ∧ 1024 ≤ { State.reset with pc := 1024 }.pc := by decide

theorem test_meets_terminal :
    { State.reset with status := .halted }.status = .halted ∧
      { State.reset with status := .faulted .stackOverflow }.status = .faulted .stackOverflow ∧
      State.reset.status = .running ∧ hostAct .releaseReset ⟨State.reset, false⟩ = .next ⟨State.reset, false⟩ ∧
      hostAct .assertReset ⟨State.reset, false⟩ = .next ⟨takeReset State.reset, true⟩ := ⟨rfl, rfl, rfl, rfl, rfl⟩

/-- The reset state at the highest value of `pc`. -/
def highest : State := { State.reset with pc := 65535 }

theorem test_meets_no_wrap :
    highest.status = .running ∧ 1024 ≤ highest.pc ∧ Instr.nop 0 ∉ [Instr.halt, .jmp, .jl, .je] ∧
      exec (.nop 0) highest = .next { highest with status := .faulted .programCounterOutOfBounds } :=
  ⟨rfl, by decide, by decide, rfl⟩

theorem test_meets_running : State.reset.status = .running := by decide

/-- The reset state at the last address. -/
def atLast : State := { State.reset with pc := 1023 }

theorem test_meets_undispatched :
    atLast.status = .running ∧ atLast.pc < 1024 ∧ atLast.sc = 0 ∧
      Memory.read atLast.mem atLast.pc ∉ atLast.cfg.opcodeMap.rows.map Prod.snd := by decide

/-- The reset state at another `pc`, with HALT's increment. -/
def haltAt (pc : Nat) : State := { State.reset with pc := pc, cfg := { defaultConfig with haltIncrementsPc := true } }

theorem test_meets_halt :
    State.reset.cfg.haltIncrementsPc = false ∧ ((haltAt 1022).cfg.haltIncrementsPc = true ∧ (haltAt 1022).pc < 1023) ∧
      ((haltAt 1023).cfg.haltIncrementsPc = true ∧ 1023 ≤ (haltAt 1023).pc) := by decide

/-- For SelectPrimaryWritesPs, SelectSecondaryWritesSs and SelectSizeWritesOs. -/
theorem test_meets_selects :
    atLast.status = .running ∧ atLast.pc < 1024 ∧ atLast.cfg.stackName = ⟨0, 1, 2, 3⟩ := by decide

theorem test_meets_illegal_size :
    { State.reset with os := 0 }.SizeIllegal ∧ { State.reset with os := 3 }.SizeIllegal := by
  unfold State.SizeIllegal; decide

/-- A state that uses operands of `n` bytes, with a stack A. -/
def sized (n : Nat) (a : ByteStack) : State := { withA a with os := n }

theorem test_meets_sizes :
    (sized 1 (zeros 0)).SizeIs 1 ∧ (sized 2 (zeros 0)).SizeIs 2 ∧ (sized 4 (zeros 0)).SizeIs 4 := by
  unfold State.SizeIs; decide

theorem test_meets_bad_selector : { sized 4 (zeros 4) with ps := 4 }.SizeIs 4 ∧ 4 ≤ { sized 4 (zeros 4) with ps := 4 }.ps := by
  unfold State.SizeIs; decide

/-- For PopMovesOperandToTmp: one byte too few, and just enough. -/
theorem test_meets_pop :
    ((sized 4 (zeros 3)).SizeIs 4 ∧ (sized 4 (zeros 3)).PrimaryIs 0 ∧ ((sized 4 (zeros 3)).stk.get 0).size.val < 4) ∧
      ((sized 4 (zeros 4)).SizeIs 4 ∧ (sized 4 (zeros 4)).PrimaryIs 0 ∧ (sized 4 (zeros 4)).status = .running ∧
        4 ≤ ((sized 4 (zeros 4)).stk.get 0).size.val) := by
  unfold State.SizeIs State.PrimaryIs; decide

/-- For PushMovesTmpToStack: one byte too many, and a stack filled. -/
theorem test_meets_push :
    ((sized 4 (zeros 1021)).SizeIs 4 ∧ (sized 4 (zeros 1021)).PrimaryIs 0 ∧
        1024 < ((sized 4 (zeros 1021)).stk.get 0).size.val + 4) ∧
      ((sized 4 (zeros 1020)).SizeIs 4 ∧ (sized 4 (zeros 1020)).PrimaryIs 0 ∧ (sized 4 (zeros 1020)).status = .running ∧
        ((sized 4 (zeros 1020)).stk.get 0).size.val + 4 ≤ 1024) := by
  unfold State.SizeIs State.PrimaryIs; decide

/-- For DupRepeatsTheOperand: too few bytes, too many, and a stack filled. -/
theorem test_meets_dup :
    ((sized 2 (zeros 1)).SizeIs 2 ∧ (sized 2 (zeros 1)).PrimaryIs 0 ∧ ((sized 2 (zeros 1)).stk.get 0).size.val < 2) ∧
      ((sized 2 (zeros 1023)).SizeIs 2 ∧ (sized 2 (zeros 1023)).PrimaryIs 0 ∧
        2 ≤ ((sized 2 (zeros 1023)).stk.get 0).size.val ∧ 1024 < ((sized 2 (zeros 1023)).stk.get 0).size.val + 2) ∧
      ((sized 2 (zeros 1022)).SizeIs 2 ∧ (sized 2 (zeros 1022)).PrimaryIs 0 ∧ (sized 2 (zeros 1022)).status = .running ∧
        2 ≤ ((sized 2 (zeros 1022)).stk.get 0).size.val ∧ ((sized 2 (zeros 1022)).stk.get 0).size.val + 2 ≤ 1024) := by
  unfold State.SizeIs State.PrimaryIs; decide

theorem test_meets_set :
    { State.reset with os := 3 }.SizeIllegal ∧ (sized 4 (zeros 0)).SizeIs 4 ∧ (sized 4 (zeros 0)).status = .running := by
  unfold State.SizeIs State.SizeIllegal; decide

/-- A state in literal-capture mode with a stack A. -/
def capturing (a : ByteStack) : State := { withA a with sc := 1, pc := 1023 }

theorem test_meets_literal :
    (0 < (capturing (zeros 0)).sc ∧ (capturing (zeros 0)).pc < 1024) ∧
      4 ≤ { capturing (zeros 0) with ps := 4 }.ps ∧
      ((capturing (zeros 1024)).PrimaryIs 0 ∧ ((capturing (zeros 1024)).stk.get 0).size.val = 1024) ∧
      ((capturing (zeros 1023)).PrimaryIs 0 ∧ (capturing (zeros 1023)).status = .running ∧
        ((capturing (zeros 1023)).stk.get 0).size.val < 1024) := by
  unfold State.PrimaryIs; decide

/-- For JmpGoesToTar: both values of the parameter, and a target where the increment faults. -/
theorem test_meets_jmp :
    { State.reset with tar := 1023 }.status = .running ∧ State.reset.cfg.jumpPostIncrement = true ∧
      { State.reset with cfg := { defaultConfig with jumpPostIncrement := false } }.cfg.jumpPostIncrement = false := by
  decide

/-- A state for JL and JE: operands of `n` bytes, these stacks A and B. -/
def comparing (n : Nat) (a b : ByteStack) : State := { withAB a b with os := n }

theorem test_meets_comparison_faults :
    ({ State.reset with os := 3 }.Canonical ∧ { State.reset with os := 3 }.SizeIllegal) ∧
      ((comparing 2 (zeros 2) (zeros 2)).Canonical ∧ (comparing 2 (zeros 2) (zeros 2)).SizeIs 2 ∧
        4 ≤ { comparing 2 (zeros 2) (zeros 2) with ps := 4 }.ps ∧ (comparing 2 (zeros 2) (zeros 2)).PrimaryIs 0 ∧
        4 ≤ { comparing 2 (zeros 2) (zeros 2) with ss := 4 }.ss) ∧
      ((comparing 2 (zeros 1) (zeros 2)).SizeIs 2 ∧ (comparing 2 (zeros 1) (zeros 2)).PrimaryIs 0 ∧
        (comparing 2 (zeros 1) (zeros 2)).SecondaryIs 1 ∧ ((comparing 2 (zeros 1) (zeros 2)).stk.get 0).size.val < 2) ∧
      ((comparing 2 (zeros 2) (zeros 1)).SizeIs 2 ∧ (comparing 2 (zeros 2) (zeros 1)).PrimaryIs 0 ∧
        (comparing 2 (zeros 2) (zeros 1)).SecondaryIs 1 ∧ 2 ≤ ((comparing 2 (zeros 2) (zeros 1)).stk.get 0).size.val ∧
        ((comparing 2 (zeros 2) (zeros 1)).stk.get 1).size.val < 2) := by
  unfold State.Canonical State.SizeIs State.SizeIllegal State.PrimaryIs State.SecondaryIs; decide

/-- What JL and JE ask of a state with two stacks, both of exactly the operand's size. -/
theorem test_meets_two_stacks :
    let s := comparing 2 (stackOf [1, 3]) (stackOf [2, 0])
    s.status = .running ∧ s.Canonical ∧ s.SizeIs 2 ∧ s.PrimaryIs 0 ∧ s.SecondaryIs 1 ∧ 2 ≤ (s.stk.get 0).size.val ∧
      2 ≤ (s.stk.get 1).size.val ∧ ((0 : StackIndex) ≠ 1 ∨ s.cfg.peekAlias = .sequential) := by
  unfold State.Canonical State.SizeIs State.PrimaryIs State.SecondaryIs; decide

/-- The two cases of JlComparesNumbers: the operands differ by one in their least significant byte, or are equal. -/
theorem test_meets_jl_cases :
    (stackOf [1, 3]).numberAt 0 2 < (stackOf [2, 3]).numberAt 0 2 ∧
      ¬ (stackOf [2, 3]).numberAt 0 2 < (stackOf [2, 3]).numberAt 0 2 := by decide

/-- The two cases of JeComparesBytes: the operands are equal, or differ in their deepest byte. -/
theorem test_meets_je_cases :
    (∀ k, k < 2 → (stackOf [2, 3]).topByte k = (stackOf [2, 3]).topByte k) ∧
      ¬ ∀ k, k < 2 → (stackOf [1, 3]).topByte k = (stackOf [2, 3]).topByte k := by
  refine ⟨fun k _ => rfl, fun h => ?_⟩
  have := h 1 (by decide)
  revert this
  decide

/-- A state for JL and JE on one stack, under either reading of the second peek. -/
def onOne (p : PeekAlias) (a : ByteStack) : State :=
  { withA a with os := 2, cfg := { defaultConfig with peekAlias := p } }

theorem test_meets_one_stack_sequential :
    let s := onOne .sequential (zeros 2)
    s.status = .running ∧ s.Canonical ∧ s.SizeIs 2 ∧ s.PrimaryIs 0 ∧ s.SecondaryIs 0 ∧ s.cfg.peekAlias = .sequential ∧
      2 ≤ (s.stk.get 0).size.val := by
  unfold State.Canonical State.SizeIs State.PrimaryIs State.SecondaryIs; decide

theorem test_meets_one_stack_interleaved :
    let s := onOne .interleaved (stackOf [2, 3, 1, 3])
    s.status = .running ∧ s.Canonical ∧ s.SizeIs 2 ∧ s.PrimaryIs 0 ∧ s.SecondaryIs 0 ∧ s.cfg.peekAlias = .interleaved ∧
      2 * 2 ≤ (s.stk.get 0).size.val ∧ (s.stk.get 0).numberAt 0 2 < (s.stk.get 0).numberAt 2 2 := by
  unfold State.Canonical State.SizeIs State.PrimaryIs State.SecondaryIs; decide

theorem test_meets_one_stack_interleaved_equal :
    let s := onOne .interleaved (zeros 4)
    s.Canonical ∧ s.SizeIs 2 ∧ s.PrimaryIs 0 ∧ s.SecondaryIs 0 ∧ 2 * 2 ≤ (s.stk.get 0).size.val ∧
      ¬ (s.stk.get 0).numberAt 0 2 < (s.stk.get 0).numberAt 2 2 ∧
      ((s.stk.get 0).topByte 0 = (s.stk.get 0).topByte 2 ∧ (s.stk.get 0).topByte 1 = (s.stk.get 0).topByte 3) := by
  unfold State.Canonical State.SizeIs State.PrimaryIs State.SecondaryIs; decide

theorem test_meets_one_stack_interleaved_underflow :
    let s := onOne .interleaved (zeros 3)
    s.status = .running ∧ s.Canonical ∧ s.SizeIs 2 ∧ s.PrimaryIs 0 ∧ s.SecondaryIs 0 ∧ s.cfg.peekAlias = .interleaved ∧
      (s.stk.get 0).size.val < 2 * 2 := by
  unfold State.Canonical State.SizeIs State.PrimaryIs State.SecondaryIs; decide

/-- For PushPrimitive, PopPrimitive and PopsReturnPushesReversed. -/
theorem test_meets_primitives :
    ((withA (zeros 1023)).stk.get 0).size.val < 1024 ∧ ((withA (zeros 1024)).stk.get 0).size.val = 1024 ∧
      0 < ((withA (zeros 1)).stk.get 0).size.val ∧ ((withA (zeros 0)).stk.get 0).size.val = 0 ∧
      ((withA (zeros 1020)).stk.get 0).size.val + [1#8, 2#8, 3#8, 4#8].length ≤ 1024 := by decide

theorem test_meets_peek :
    Memory.wf ((withA (zeros 2)).stk.get 0).data ∧ 2 ≤ ((withA (zeros 2)).stk.get 0).size.val ∧
      ((withA (zeros 2)).stk.get 0).size.val < 3 := by decide

/-- For LessIsLexicographic and EqualBytesAreEqualNumbers: sequences that differ, and that do not. -/
theorem test_meets_equal_lengths :
    [3#8, 1#8].length = [3#8, 2#8].length ∧ isLess [3#8, 1#8] [3#8, 2#8] = true ∧ isEqual [3#8, 1#8] [3#8, 1#8] = true := by
  decide

/-- For PushedValueIsTheNumberJlReads and PushThenPop, with each value of the parameter. -/
theorem test_meets_push_then_pop :
    let s := { sized 4 (zeros 1020) with pc := 1021 }
    s.status = .running ∧ s.SizeIs 4 ∧ s.PrimaryIs 0 ∧ (s.stk.get 0).size.val + 4 ≤ 1024 ∧ s.pc < 1022 ∧
      s.cfg.popMerge = .zero ∧ s.cfg.popFirstPopped = .leastSignificant ∧
      { s with cfg := { defaultConfig with popFirstPopped := .mostSignificant } }.cfg.popFirstPopped = .mostSignificant := by
  unfold State.SizeIs State.PrimaryIs; decide

theorem test_meets_pop_then_push :
    let s := { sized 4 (zeros 4) with pc := 1021 }
    s.status = .running ∧ s.SizeIs 4 ∧ s.PrimaryIs 0 ∧ 4 ≤ (s.stk.get 0).size.val ∧ s.pc < 1022 ∧
      s.cfg.popFirstPopped = .leastSignificant := by
  unfold State.SizeIs State.PrimaryIs; decide

/-- A program whose last instruction is a SET of four literals, the last of them at address 1022. -/
def setAtEnd : State := { sized 4 (zeros 1020) with pc := 1018, mem := [(1018, 0x5E)] }

theorem test_meets_literal_run :
    setAtEnd.status = .running ∧ setAtEnd.sc = 0 ∧ setAtEnd.SizeIs 4 ∧ setAtEnd.PrimaryIs 0 ∧
      setAtEnd.cfg.opcodeMap.distinct = true ∧ setAtEnd.pc + 4 < 1023 ∧
      Memory.read setAtEnd.mem setAtEnd.pc = setAtEnd.cfg.opcodeMap.set ∧
      (setAtEnd.stk.get 0).size.val + 4 ≤ 1024 := by
  unfold State.SizeIs State.PrimaryIs; decide

/-- For LegalKeptByStep, LegalStateRaisesNoCheckFault, CanonicalKeptByStep and NoStepWritesTarOrProgram. -/
theorem test_meets_invariants :
    State.reset.Legal ∧ State.reset.Canonical ∧ State.reset.status = .running ∧
      step State.reset = .next { State.reset with pc := 1 } := by
  refine ⟨?_, ?_, rfl, rfl⟩
  · unfold State.Legal; decide
  · unfold State.Canonical; decide

theorem test_meets_reachable : State.Reachable { State.reset with pc := 1 } :=
  .step (.boot defaultConfig []) rfl

/-- For OnlySelectsWriteSelectors, OnlyPopWritesTmp, OtherStacksUnchanged and HowEachInstructionEnds. -/
theorem test_meets_exec_next :
    exec .jmp State.reset = .next { State.reset with pc := 1 } ∧ Instr.jmp ∉ [Instr.psa, .psb, .psc, .psd] ∧
      Instr.jmp ∉ [Instr.ssa, .ssb, .ssc, .ssd] ∧ Instr.jmp ∉ [Instr.os1, .os2, .os4] ∧ Instr.jmp ≠ .pop ∧
      Instr.jmp ≠ .set ∧ Instr.jmp ∉ [Instr.pop, .push, .dup, .jl, .je] ∧ State.reset.cfg.haltIncrementsPc = false := by
  refine ⟨rfl, ?_⟩
  decide

/-- OtherStacksUnchanged, where a stack is reached and another is not. -/
theorem test_meets_other_stacks :
    seen (exec .je (comparing 1 (zeros 1) (zeros 1))) State.status = some .running ∧
      (comparing 1 (zeros 1) (zeros 1)).ps ≠ 2 ∧ (comparing 1 (zeros 1) (zeros 1)).ss ≠ 2 := by
  decide

/-- A JMP at address 0. -/
def jumping (target : Addr) : State := { State.reset with mem := [(0, 0x60)], tar := target }

/-- PcOfAFaultedState: a fault at the byte, and one at the target of a taken jump. -/
theorem test_meets_faulted_pc :
    step atLast = .next { atLast with status := .faulted .programCounterOutOfBounds } ∧
      step (jumping 1023) =
        .next { jumping 1023 with pc := 1023, status := .faulted .programCounterOutOfBounds } := ⟨rfl, rfl⟩

/-- NextAddress: one byte on, and by a jump. -/
theorem test_meets_next_address :
    step State.reset = .next { State.reset with pc := 1 } ∧
      step (jumping 1022) = .next { jumping 1022 with pc := 1023 } := ⟨rfl, rfl⟩

/-- Two states that differ in a stale byte take a step. -/
theorem test_meets_stale_bytes :
    (withA ⟨[], 0⟩).SameButStale (withA ⟨[(0, 7)], 0⟩) ∧ step (withA ⟨[], 0⟩) = .next { withA ⟨[], 0⟩ with pc := 1 } := by
  refine ⟨⟨fun i => ?_, rfl⟩, rfl⟩
  fin_cases i <;> exact ⟨rfl, fun k hk => absurd hk (Nat.not_lt_zero k)⟩

theorem test_meets_reset_state :
    takeReset { State.reset with tmp := 5, status := .halted } = State.reset ∧
      hostActs [.assertReset, .releaseReset] ⟨{ State.reset with tmp := 5, status := .halted }, false⟩ =
        .next ⟨State.reset, false⟩ := ⟨rfl, rfl⟩

/-- LoadedImage: the last byte of a file, and the first after it; a machine before its run, and one whose run has ended. -/
theorem test_meets_loaded_image :
    (2 < 1024 ∧ 2 < [1#8, 2#8, 3#8].length) ∧ [1#8, 2#8, 3#8].length ≤ 3 ∧ (powerOn defaultConfig).rst = true ∧
      (Block.mk { State.reset with status := .halted } false).core.status ≠ .running := by decide

/-- A file of one HALT in place of a program that runs: refused during the run, and taken while reset is held (R215). -/
theorem test_fill_under_reset :
    hostActs [.load [0xFF#8], .assertReset] ⟨jumping 3, false⟩ = .refused .loadWhileRunning ∧
      hostActs [.assertReset, .load [0xFF#8], .releaseReset] ⟨jumping 3, false⟩ =
        .next ⟨{ State.reset with mem := [(0, 0xFF#8)] }, false⟩ := ⟨rfl, rfl⟩

/-- MemoryPortGivesTheFetchedByte and EventPortCarriesTheEvent: a fetch at the last address, and reset held. -/
theorem test_meets_ports :
    let b : Block := ⟨atLast, false⟩
    b.rst = false ∧ b.core.status = .running ∧ b.core.pc < 1024 ∧ b.core.sc = 0 ∧ imemAddrPort b = some 1023 ∧
      (powerOn defaultConfig).rst = true := by decide

/-- The machine with the narrowest registers, and the greatest value each can hold. -/
def narrow : State :=
  { State.reset with
    pc := 65535
    ps := 3
    ss := 3
    os := 7
    sc := 7
    cfg := { defaultConfig with widths := ⟨16, 2, 3, 3, 11⟩ } }

/-- For FitsAtReset and FitsKeptByStep. -/
theorem test_meets_widths :
    defaultConfig.wf = true ∧ narrow.cfg.wf = true ∧ narrow.cfg.widths.selBits = 2 ∧ narrow.Fits ∧
      step narrow = .next { narrow with status := .faulted .programCounterOutOfBounds } := by
  refine ⟨by decide, by decide, rfl, ?_, rfl⟩
  unfold State.Fits; decide

/-- OneEventPerFetch, EventPortCarriesTheEvent and MemoryPortGivesTheFetchedByte: each mode, and no fetch. -/
theorem test_meets_events :
    (lastLiteral.status = .running ∧ lastLiteral.pc < 1024 ∧ 0 < lastLiteral.sc) ∧ atLast.sc = 0 ∧
      { State.reset with status := .halted }.status ≠ .running ∧ 1024 ≤ { State.reset with pc := 1024 }.pc := by decide

/-- ExitStatusTellsTheEnd: two states that ended in one way. -/
theorem test_meets_exit_status :
    let s := { State.reset with status := .faulted .stackUnderflow }
    s.cfg.wf = true ∧ State.reset.cfg = s.cfg ∧ s.status ≠ .running ∧ exitStatus s = exitStatus { s with pc := 9 } ∧
      exitStatus s = some 2 := by decide

/-- For FinalReportLines and HostMoves. -/
theorem test_meets_report :
    State.reset.status = .running ∧ { State.reset with status := .halted }.status ≠ .running ∧
      { State.reset with status := .halted }.cfg.stackName = ⟨0, 1, 2, 3⟩ := by decide

/-- HostMoves: reset held, and reset released with a step to take. -/
theorem test_meets_host_moves :
    (powerOn defaultConfig).rst = true ∧ (powerOn defaultConfig).core.status = .running ∧
      (Block.mk State.reset false).rst = false ∧ step State.reset = .next { State.reset with pc := 1 } :=
  ⟨rfl, rfl, rfl, rfl⟩

end Sys2Proof.Tests
end

section
/-! The rules for one step and for a run of steps (40_dispatcher.md R100), and for SET and the literal-capture step
(42_stack_transfer.md R147, R148), each said once. -/

namespace Sys2Proof.Machine

/-! ### One step, and a run of steps -/

/-- A running state with `pc` inside `mem` executes the byte there, decoded under `sc` (R100, R102). -/
theorem step_eq_exec {s : State} (hr : s.status = .running) (hp : s.pc < 1024) :
    step s = exec (decode s.cfg.opcodeMap s.sc (Memory.read s.mem s.pc)) s := by
  simp [step, hr, fetch, hp]

/-- While `sc > 0` the byte at `pc` is a literal (R82, R101). -/
theorem step_eq_execLit {s : State} (hr : s.status = .running) (hp : s.pc < 1024) (hc : 0 < s.sc) :
    step s = exec (.lit (Memory.read s.mem s.pc)) s := by
  rw [step_eq_exec hr hp, decode, modeOf_of_pos hc]

/-- In decode mode the byte of a row of the opcode map runs the row's instruction (R82). -/
theorem step_eq_exec_row {s : State} {r : Instr × Byte} (hr : s.status = .running) (hp : s.pc < 1024) (hc : s.sc = 0)
    (hd : s.cfg.opcodeMap.distinct = true) (hm : r ∈ s.cfg.opcodeMap.rows) (hb : Memory.read s.mem s.pc = r.2) :
    step s = exec r.1 s := by
  rw [step_eq_exec hr hp, hc, hb]
  exact congrArg (exec · s) (decodeOpcode_row hd hm)

theorem run_zero {M : Host.Core} (s : M.State) : M.run 0 s = .next s := rfl

/-- A run goes on from the next state of its first step. -/
theorem run_succ_of_step {M : Host.Core} {s t : M.State} (h : M.step s = .next t) (k : Nat) :
    M.run (k + 1) s = M.run k t := by
  rw [Host.Core.run, h]

/-! ### Pushes -/

theorem ByteStack.pushedOnto_nil (st : ByteStack) : st.PushedOnto st [] := ⟨rfl, by simp, fun _ _ => rfl⟩

/-- The effect of `Push(i, b)` on a stack with room (R52). -/
theorem pushByte_pushedOnto {i : StackIndex} {s : State} (h : (s.stk.get i).size.val < 1024) (b : Byte) :
    ∃ st : ByteStack, st.PushedOnto (s.stk.get i) [b] ∧ pushByte i b s = .ok () { s with stk := s.stk.put i st } := by
  obtain ⟨st, hst, hpush, -⟩ := ByteStack.push_ok h b
  exact ⟨st, hpush, pushByte_ok hst⟩

/-! ### SET and the literal-capture step -/

/-- The execute phase of SET under a legal operand size (R147). -/
theorem setPhase_ok {s : State} {n : Nat} (h : s.SizeIs n) : setPhase s = .ok .increment { s with sc := s.os } := by
  obtain ⟨hn, hos⟩ := h
  obtain ⟨z, hz, -⟩ := legalSize_eq hn hos
  rw [setPhase, bind_ok (operandSize_ok hz)]
  rfl

/-- SET under a legal operand size (R147, R105). -/
theorem execSet_ends {s : State} {n : Nat} (hr : s.status = .running) (h : s.SizeIs n) :
    EndsAfter (exec .set s) { s with sc := s.os } :=
  settle_increment (setPhase_ok h) hr

/-- The execute phase of a literal-capture step onto a stack with room (R148). -/
theorem litPhase_ok {s : State} {i : StackIndex} (hi : s.PrimaryIs i) (h : (s.stk.get i).size.val < 1024) (b : Byte) :
    ∃ st : ByteStack, st.PushedOnto (s.stk.get i) [b] ∧
      litPhase b s = .ok .increment { s with stk := s.stk.put i st, sc := s.sc - 1 } := by
  obtain ⟨st, hst, hpush⟩ := pushByte_pushedOnto h b
  refine ⟨st, hst, ?_⟩
  rw [litPhase, bind_ok (primary_ok hi), bind_ok hpush]
  rfl

/-- A literal-capture step onto a stack with room (R148, R105). -/
theorem execLit_ends {s : State} {i : StackIndex} (hr : s.status = .running) (hi : s.PrimaryIs i)
    (h : (s.stk.get i).size.val < 1024) (b : Byte) :
    ∃ st : ByteStack, st.PushedOnto (s.stk.get i) [b] ∧
      EndsAfter (exec (.lit b) s) { s with stk := s.stk.put i st, sc := s.sc - 1 } := by
  obtain ⟨st, hst, hlit⟩ := litPhase_ok hi h b
  exact ⟨st, hst, settle_increment hlit hr⟩

/-! ### A run of literals -/

/-- The `n` bytes of program memory from address `a` on. -/
def literalsFrom (m : Memory) (a n : Nat) : List Byte := (List.range n).map (fun k => Memory.read m (a + k))

theorem literalsFrom_succ (m : Memory) (a n : Nat) :
    literalsFrom m a (n + 1) = Memory.read m a :: literalsFrom m (a + 1) n := by
  simp [literalsFrom, List.range_succ_eq_map, Function.comp_def, Nat.add_assoc, Nat.add_comm 1]

/-- As many steps as `sc` counts push as many bytes from `pc` on, and end in decode mode. -/
theorem run_literals {i : StackIndex} {n : Nat} {s : State} (hr : s.status = .running) (hc : s.sc = n)
    (hi : s.PrimaryIs i) (hp : s.pc + n < 1024) (hroom : (s.stk.get i).size.val + n ≤ 1024) :
    ∃ st : ByteStack, st.PushedOnto (s.stk.get i) (literalsFrom s.mem s.pc n) ∧
      Host.Core.run Sys2Proof.core n s = .next { s with stk := s.stk.put i st, sc := 0, pc := s.pc + n } := by
  induction n generalizing s with
  | zero =>
    refine ⟨s.stk.get i, ByteStack.pushedOnto_nil _, (run_zero (M := core) s).trans ?_⟩
    rw [StackBank.put_get, Nat.add_zero, ← hc]
  | succ n ih =>
    obtain ⟨x, hx, hends⟩ := execLit_ends hr hi (by omega) (Memory.read s.mem s.pc)
    have hstep := (step_eq_execLit hr (by omega) (by omega)).trans (hends.1 (by simp; omega))
    have hsize : x.size.val = (s.stk.get i).size.val + 1 := hx.1
    obtain ⟨y, hy, hrun⟩ := ih (s := { s with stk := s.stk.put i x, sc := s.sc - 1, pc := s.pc + 1 }) hr
      (by simp [hc]) hi (by simp; omega) (by simp; omega)
    simp only [StackBank.get_put_self, StackBank.put_put] at hy hrun
    refine ⟨y, ?_, ?_⟩
    · rw [literalsFrom_succ]
      exact hx.trans hy
    · rw [run_succ_of_step (M := core) hstep, hrun, Nat.add_right_comm, Nat.add_assoc]

/-- Settles O37: SET arms `sc` with `os`, and the run of literals that follows counts it down to 0 (R59). -/
theorem literalRunKeepsProgramOrder : Obligations.LiteralRunKeepsProgramOrder := by
  intro s n i hr hc hn hi hd hp hset hroom
  have hrow : (Instr.set, s.cfg.opcodeMap.set) ∈ s.cfg.opcodeMap.rows := by simp [OpcodeMap.rows]
  have hstep := (step_eq_exec_row hr (by omega) hc hd hrow hset).trans ((execSet_ends hr hn).1 (by simp; omega))
  obtain ⟨st, hst, hrun⟩ := run_literals (i := i) (n := n) (s := { s with sc := s.os, pc := s.pc + 1 })
    hr hn.2 hi (by simp; omega) hroom
  refine ⟨st, hst, ?_⟩
  rw [run_succ_of_step (M := core) hstep, hrun, ← hc, Nat.add_right_comm]

/-- Settles O25: both branches of the bound check of R52. -/
theorem pushPrimitive : Obligations.PushPrimitive :=
  fun _ _ b => ⟨fun hroom => pushByte_pushedOnto hroom b, fun hfull => pushByte_full hfull.ge b⟩

end Sys2Proof.Machine
end

section
/-! What a byte means in each mode (30_encoding.md R82), from the laws of the opcode map. -/

namespace Sys2Proof

/-- While `sc > 0` every byte is a literal, under every opcode map. -/
theorem decode_of_pos (m : OpcodeMap) {sc : Nat} (h : 0 < sc) (b : Byte) : decode m sc b = .lit b := by
  rw [decode, modeOf_of_pos h]

/-- With `sc = 0` the opcode map alone gives the meaning. -/
theorem decode_zero (m : OpcodeMap) (b : Byte) : decode m 0 b = decodeOpcode m b := rfl

/-- Settles O2: literal-capture mode, and in decode mode a byte of the map and a byte outside it. -/
theorem everyByteHasOneReading : Obligations.EveryByteHasOneReading := by
  intro m sc b
  refine ⟨fun hpos => decode_of_pos m hpos b, ?row, ?nop⟩
  case row =>
    rintro rfl hd r hr rfl
    rw [decode_zero, decodeOpcode_row hd hr]
  case nop =>
    rintro rfl hb
    rw [decode_zero, decodeOpcode_nop hb]

end Sys2Proof
end

section
/-! NOP (40_dispatcher.md R107), executed and fetched. -/

namespace Sys2Proof.Machine

/-- The execute phase of NOP does nothing, so its step is the increment alone (R105, R107). -/
theorem execNop_ends {s : State} (hr : s.status = .running) (b : Byte) : EndsAfter (exec (.nop b) s) s := by
  rw [exec_eq_settle]
  exact settle_increment rfl hr

/-- In decode mode a byte outside the opcode map runs as NOP (R82, R107). -/
theorem step_eq_execNop {s : State} (hr : s.status = .running) (hp : s.pc < 1024) (hc : s.sc = 0)
    (hb : Memory.read s.mem s.pc ∉ s.cfg.opcodeMap.rows.map Prod.snd) :
    step s = exec (.nop (Memory.read s.mem s.pc)) s := by
  rw [step_eq_exec hr hp, hc, decode_zero, decodeOpcode_nop hb]

/-- Settles O9: the fetched byte runs as NOP, and NOP ends in the increment. -/
theorem undispatchedByteOnlyAdvances : Obligations.UndispatchedByteOnlyAdvances := by
  intro s hr hp
  refine ⟨execNop_ends hr, fun hc hb => ?_⟩
  rw [step_eq_execNop hr hp hc hb]
  exact execNop_ends hr _

end Sys2Proof.Machine
end

section
/-! The eleven select instructions (41_select.md R120 to R130): one write, then the end of the step (R105). -/

namespace Sys2Proof.Machine

/-- An instruction whose execute phase leaves the machine running ends in the increment (R105). -/
theorem exec_ends_of_phase {i : Instr} {s t : State} (h : phaseOf i s = .ok .increment t) (hr : t.status = .running) :
    EndsAfter (exec i s) t := by
  rw [exec_eq_settle]
  exact settle_increment h hr

theorem selectPrimary_ok (n : StackName) (s : State) :
    selectPrimary n s = .ok .increment { s with ps := (s.cfg.stackName.index n).val } := rfl

theorem selectSecondary_ok (n : StackName) (s : State) :
    selectSecondary n s = .ok .increment { s with ss := (s.cfg.stackName.index n).val } := rfl

theorem selectSize_ok (v : Nat) (s : State) : selectSize v s = .ok .increment { s with os := v } := rfl

/-- A select of the primary stack under the pairing `names` (R120 to R123, D2). -/
theorem execSelectPrimary_ends {i : Instr} {n : StackName} {s : State} {names : StackNames} (hr : s.status = .running)
    (hn : s.cfg.stackName = names) (hi : phaseOf i = selectPrimary n) :
    EndsAfter (exec i s) { s with ps := (names.index n).val } := by
  subst hn
  exact exec_ends_of_phase (hi ▸ selectPrimary_ok n s) hr

/-- A select of the secondary stack under the pairing `names` (R124 to R127, D2). -/
theorem execSelectSecondary_ends {i : Instr} {n : StackName} {s : State} {names : StackNames}
    (hr : s.status = .running) (hn : s.cfg.stackName = names) (hi : phaseOf i = selectSecondary n) :
    EndsAfter (exec i s) { s with ss := (names.index n).val } := by
  subst hn
  exact exec_ends_of_phase (hi ▸ selectSecondary_ok n s) hr

/-- A select of the operand size (R128 to R130). -/
theorem execSelectSize_ends {i : Instr} {v : Nat} {s : State} (hr : s.status = .running)
    (hi : phaseOf i = selectSize v) : EndsAfter (exec i s) { s with os := v } :=
  exec_ends_of_phase (hi ▸ selectSize_ok v s) hr

/-- Settles O11: PSA to PSD select the primary stack by the names A to D, and these stand for 0 to 3. -/
theorem selectPrimaryWritesPs : Obligations.SelectPrimaryWritesPs := by
  intro s hr _ hn
  refine ⟨?psa, ?psb, ?psc, ?psd⟩
  case psa => exact execSelectPrimary_ends (n := .a) hr hn rfl
  case psb => exact execSelectPrimary_ends (n := .b) hr hn rfl
  case psc => exact execSelectPrimary_ends (n := .c) hr hn rfl
  case psd => exact execSelectPrimary_ends (n := .d) hr hn rfl

/-- Settles O12: SSA to SSD select the secondary stack by the names A to D, and these stand for 0 to 3. -/
theorem selectSecondaryWritesSs : Obligations.SelectSecondaryWritesSs := by
  intro s hr _ hn
  refine ⟨?ssa, ?ssb, ?ssc, ?ssd⟩
  case ssa => exact execSelectSecondary_ends (n := .a) hr hn rfl
  case ssb => exact execSelectSecondary_ends (n := .b) hr hn rfl
  case ssc => exact execSelectSecondary_ends (n := .c) hr hn rfl
  case ssd => exact execSelectSecondary_ends (n := .d) hr hn rfl

/-- Settles O14: OS1, OS2 and OS4 select the sizes 1, 2 and 4. -/
theorem selectSizeWritesOs : Obligations.SelectSizeWritesOs := by
  intro s hr _
  exact ⟨execSelectSize_ends hr rfl, execSelectSize_ends hr rfl, execSelectSize_ends hr rfl⟩

end Sys2Proof.Machine
end

section
/-! `Split` and `Assemble` (42_stack_transfer.md R142, R143): between a list of bytes and a 32-bit value. -/

namespace Sys2Proof.Machine

/-! ### Split -/

@[simp] theorem split_length (z : OperandSize) (v : Word) : (split z v).length = byteCount z := by
  simp [split]

theorem split_getD {z : OperandSize} {k : Nat} (v : Word) (hk : k < byteCount z) :
    (split z v).getD k 0#8 = v.extractLsb' (8 * k) 8 := by
  have hrange : (List.range (byteCount z))[k]? = some k := List.getElem?_range hk
  simp [split, hrange]

/-! ### Assemble -/

/-- One byte has one order of significance. -/
@[simp] theorem significanceOrder_singleton (f : PopFirstPopped) (b : Byte) : significanceOrder f [b] = [b] := by
  cases f <;> rfl

theorem lane_toNat_lt (q : List Byte) (k : Nat) : (lane q k).toNat < 2 ^ 8 := by
  have hbyte := (q.getD k 0#8).isLt
  rw [lane, BitVec.toNat_setWidth]
  omega

theorem lane_shiftLeft_toNat_lt (q : List Byte) (k : Nat) : (lane q k <<< 8).toNat < 2 ^ 16 := by
  have hlane := lane_toNat_lt q k
  rw [BitVec.toNat_shiftLeft, Nat.shiftLeft_eq]
  omega

/-- At 1 and 2 bytes every lane stays within the bits of the operand; at 4 bytes the operand is the whole word. -/
theorem assembleOrdered_toNat_lt (z : OperandSize) (q : List Byte) :
    (assembleOrdered z q).toNat < 2 ^ (8 * byteCount z) := by
  cases z with
  | one => exact lane_toNat_lt q 0
  | two =>
    have hlow : (lane q 0).toNat < 2 ^ 16 := (lane_toNat_lt q 0).trans (by decide)
    show (lane q 0 ||| lane q 1 <<< 8).toNat < 2 ^ 16
    rw [BitVec.toNat_or]
    exact Nat.or_lt_two_pow hlow (lane_shiftLeft_toNat_lt q 1)
  | four => exact (assembleOrdered .four q).isLt

theorem assemble_toNat_lt (f : PopFirstPopped) (z : OperandSize) (b : List Byte) :
    (assemble f z b).toNat < 2 ^ (8 * byteCount z) :=
  assembleOrdered_toNat_lt z (significanceOrder f b)

/-- Settles O30: `Split` maps byte `k` of the range to its eight bits, so it has `n` bytes and each is as R143 says. -/
theorem splitCutsLowBytes : Obligations.SplitCutsLowBytes :=
  fun z v => ⟨split_length z v, fun _ hk => split_getD v hk⟩

/-- Settles O31: at a list of known length `Assemble` computes to its lanes, read off in either order of significance,
and the bound is the width of the lanes. -/
theorem assembleOfPoppedBytes : Obligations.AssembleOfPoppedBytes := by
  refine ⟨?one, ?two, ?four, assemble_toNat_lt⟩
  case one =>
    intro b0 f
    rw [assemble, significanceOrder_singleton]
    rfl
  case two => exact fun _ _ => ⟨rfl, rfl⟩
  case four => exact fun _ _ _ _ => ⟨rfl, rfl⟩

end Sys2Proof.Machine
end

section
/-! What reset leaves in the bank, and the whole of the reset state (70_reset_and_hazards.md R210). -/

namespace Sys2Proof.Machine

/-- A bank of four equal stacks answers that stack at every index. -/
@[simp] theorem StackBank.get_uniform (st : ByteStack) (i : StackIndex) : StackBank.get ⟨st, st, st, st⟩ i = st := by
  fin_cases i <;> rfl

@[simp] theorem ByteStack.empty_size : ByteStack.empty.size = 0 := rfl

@[simp] theorem ByteStack.read_empty (k : Nat) : Memory.read ByteStack.empty.data k = 0#8 := rfl

/-- Reset empties every stack of the bank. -/
theorem takeReset_get (s : State) (i : StackIndex) : (takeReset s).stk.get i = ByteStack.empty := by
  rw [takeReset_stk, StackBank.get_uniform]

/-- The reset state is a fixed point of reset. -/
theorem takeReset_reset : takeReset State.reset = State.reset := takeReset_eq State.reset

/-- Settles O53: `State.reset` is itself left by a reset, so both states of the statement are a `takeReset s`, whose fields
the writes of reset determine. -/
theorem resetState : Obligations.ResetState := by
  refine ⟨fun t ht => ?values, fun s => ⟨takeReset_mem s, takeReset_cfg s⟩⟩
  have hreset : ∃ s, t = takeReset s := ht.elim (fun h => ⟨State.reset, h.trans takeReset_reset.symm⟩) id
  obtain ⟨s, rfl⟩ := hreset
  refine ⟨takeReset_pc s, takeReset_ps s, takeReset_ss s, takeReset_os s, takeReset_tmp s, takeReset_tar s,
    takeReset_sc s, takeReset_status s, fun i => ?stack⟩
  rw [takeReset_get]
  exact ⟨ByteStack.empty_size, ByteStack.read_empty⟩

end Sys2Proof.Machine
end

section
/-! Decoding an encoded instruction gives it back (30_encoding.md R82, R83), in every mode and under every map. -/

namespace Sys2Proof

/-- An instruction of decode mode is a NOP, or stands in the opcode map beside its byte. -/
theorem mem_rows_of_mode_decode (m : OpcodeMap) {i : Instr} (h : i.mode = .decode) :
    (∃ b, i = .nop b) ∨ (i, encode m i) ∈ m.rows := by
  cases i with
  | nop b => exact .inl ⟨b, rfl⟩
  | lit b => cases h
  | _ => exact .inr (by simp [OpcodeMap.rows, encode])

/-- Decode mode reads every byte by the opcode map alone (R101). -/
theorem decode_of_mode_decode (m : OpcodeMap) {sc : Nat} (h : modeOf sc = .decode) (b : Byte) :
    decode m sc b = decodeOpcode m b := by
  rw [decode, h]

theorem decode_encode {m : OpcodeMap} {i : Instr} {sc : Nat} (hd : m.distinct = true) (hi : i.wf m = true)
    (hm : modeOf sc = i.mode) : decode m sc (encode m i) = i := by
  cases hmode : i.mode with
  | literal =>
    obtain ⟨b, rfl⟩ : ∃ b, i = .lit b := by
      cases i with
      | lit b => exact ⟨b, rfl⟩
      | _ => cases hmode
    rw [decode, hm]
    rfl
  | decode =>
    rw [decode_of_mode_decode m (hm.trans hmode)]
    rcases mem_rows_of_mode_decode m hmode with ⟨b, rfl⟩ | hrow
    · exact decodeOpcode_nop (by simpa [Instr.wf, encode] using hi)
    · exact decodeOpcode_row hd hrow

/-- Settles O1: the instruction's row is the only one with its byte, a NOP's byte is in no row, and a literal is its
byte. -/
theorem decodeOfEncodeIsTheInstruction : Obligations.DecodeOfEncodeIsTheInstruction := by
  intro m i sc rest hd hi hm
  have hdec := decode_encode hd hi hm
  exact ⟨hdec, by rw [encodeBytes, List.singleton_append, decodeBytes, hdec]⟩

/-! ### How many bytes are NOPs -/

/-- A byte reads as a NOP exactly when the map does not dispatch it. -/
theorem decodeOpcode_eq_nop_iff {m : OpcodeMap} (hd : m.distinct = true) (b : Byte) :
    decodeOpcode m b = .nop b ↔ b ∉ m.rows.map Prod.snd := by
  refine ⟨fun hnop hb => ?_, decodeOpcode_nop⟩
  obtain ⟨r, hr, rfl⟩ := List.mem_map.1 hb
  rw [decodeOpcode_row hd hr] at hnop
  have hrows : ∀ r ∈ m.rows, r.1 ≠ .nop r.2 := by simp [OpcodeMap.rows]
  exact hrows r hr hnop

/-- Whether `b` is the value of a byte that is a NOP in decode mode. -/
def readsAsNop (m : OpcodeMap) (b : Nat) : Bool := decide (decode m 0 (BitVec.ofNat 8 b) = .nop (BitVec.ofNat 8 b))

theorem readsAsNop_toNat {m : OpcodeMap} (hd : m.distinct = true) (v : Byte) :
    readsAsNop m v.toNat = true ↔ v ∉ m.rows.map Prod.snd := by
  rw [readsAsNop, BitVec.ofNat_toNat, BitVec.setWidth_eq, decide_eq_true_iff]
  exact decodeOpcode_eq_nop_iff hd v

/-- The other byte values are the 19 of the map. -/
theorem filter_not_readsAsNop_perm {m : OpcodeMap} (hd : m.distinct = true) :
    ((List.range 256).filter fun b => !readsAsNop m b).Perm ((m.rows.map Prod.snd).map BitVec.toNat) := by
  have hrows : (m.rows.map Prod.snd).Nodup := of_decide_eq_true hd
  refine (List.perm_ext_iff_of_nodup (List.nodup_range.filter _)
    (hrows.map fun _ _ => BitVec.eq_of_toNat_eq)).2 fun b => ?_
  rw [List.mem_filter, List.mem_range, List.mem_map]
  constructor
  · rintro ⟨hlt, hb⟩
    have hv : (BitVec.ofNat 8 b).toNat = b := Nat.mod_eq_of_lt hlt
    rw [← hv, Bool.not_eq_true', Bool.eq_false_iff, Ne, readsAsNop_toNat hd, not_not] at hb
    exact ⟨_, hb, hv⟩
  · rintro ⟨v, hv, rfl⟩
    refine ⟨v.isLt, ?_⟩
    rw [Bool.not_eq_true', Bool.eq_false_iff, Ne, readsAsNop_toNat hd, not_not]
    exact hv

/-- Under every map with distinct values 237 bytes are NOPs: 256 less the 19 dispatched ones. -/
theorem countP_readsAsNop {m : OpcodeMap} (hd : m.distinct = true) : (List.range 256).countP (readsAsNop m) = 237 := by
  have hsplit := List.length_eq_countP_add_countP (readsAsNop m) (l := List.range 256)
  have hother : (List.range 256).countP (fun b => !readsAsNop m b) = 19 := by
    rw [List.countP_eq_length_filter, (filter_not_readsAsNop_perm hd).length_eq]
    rfl
  simp only [List.length_range, Bool.not_eq_true, Bool.decide_eq_false, hother] at hsplit
  omega

/-- Settles O3: closed evaluations of the default map, and the count of what it leaves out. -/
theorem defaultOpcodeGrid : Obligations.DefaultOpcodeGrid :=
  ⟨by decide, by decide, countP_readsAsNop (by decide), by decide⟩

end Sys2Proof
end

section
/-! Legal register widths (00_scope.md R7, D3). -/

namespace Sys2Proof

theorem RegisterWidths.wf_iff (w : RegisterWidths) :
    w.wf = true ↔ 16 ≤ w.pcBits ∧ 2 ≤ w.selBits ∧ 3 ≤ w.osBits ∧ 3 ≤ w.scBits ∧ 11 ≤ w.sizeBits := by
  simp [RegisterWidths.wf, and_assoc]

theorem Config.widths_wf {c : Config} (h : c.wf = true) : c.widths.wf = true := by
  simp only [Config.wf, Bool.and_eq_true] at h
  obtain ⟨⟨-, hw⟩, -⟩ := h
  exact hw

end Sys2Proof
end

section
/-! What every step keeps: a property that each single write of an execute phase keeps is an invariant of the machine
(10_state.md R35). -/

namespace Sys2Proof.Machine

theorem eq_byteCount_of_legalSize {v : Nat} {z : OperandSize} (h : legalSize v = some z) : v = byteCount z := by
  unfold legalSize at h
  split at h
  · cases h; assumption
  · split at h
    · cases h; assumption
    · split at h
      · cases h; assumption
      · cases h

theorem byteCount_le_four (z : OperandSize) : byteCount z ≤ 4 := by
  cases z <;> decide

/-- If the state before has `I`, so has the state after. -/
def Keeps (I : State → Prop) (s t : State) : Prop := I s → I t

theorem Keeps.refl {I : State → Prop} (s : State) : Keeps I s s := id

theorem Keeps.trans {I : State → Prop} (a b c : State) (hab : Keeps I a b) (hbc : Keeps I b c) : Keeps I a c :=
  fun ha => hbc (hab ha)

/-- Every single write an instruction can make keeps `I`: the selects write indices and sizes, SET a legal size, LIT one
less, a jump `tar`, and the increment stays inside `mem`. -/
structure KeptByWrites (I : State → Prop) : Prop where
  fault : ∀ k s, Keeps I s (takeFault k s)
  inc : ∀ s : State, s.pc + 1 < 1024 → Keeps I s { s with pc := s.pc + 1 }
  push : ∀ i b, Moves (Keeps I) (pushByte i b)
  pop : ∀ i, Moves (Keeps I) (popByte i)
  jump : ∀ s : State, Keeps I s { s with pc := s.tar.toNat }
  halt : ∀ s : State, Keeps I s { s with status := .halted }
  ps : ∀ (n : StackIndex) (s : State), Keeps I s { s with ps := n.val }
  ss : ∀ (n : StackIndex) (s : State), Keeps I s { s with ss := n.val }
  os : ∀ v, v = 1 ∨ v = 2 ∨ v = 4 → ∀ s : State, Keeps I s { s with os := v }
  tmp : ∀ (v : Word) (s : State), Keeps I s { s with tmp := v }
  set : ∀ s : State, s.os ≤ 4 → Keeps I s { s with sc := s.os }
  lit : ∀ s : State, Keeps I s { s with sc := s.sc - 1 }

theorem exec_keeps {I : State → Prop} (h : KeptByWrites I) {i : Instr} {s t : State} (he : exec i s = .next t) :
    Keeps I s t :=
  exec_moves Keeps.refl Keeps.trans h.fault (moves_incrementPc Keeps.refl h.inc) h.push h.pop h.jump h.halt i
    (ps := fun n _ => h.ps n) (ss := fun n _ => h.ss n) (os := fun v hv _ => h.os v hv) (tmp := fun _ => h.tmp)
    (set := fun _ s z hz => h.set s (eq_byteCount_of_legalSize hz ▸ byteCount_le_four z)) (lit := fun _ => h.lit) he

/-- An invariant of the writes is an invariant of the step, a faulting or halting one too. -/
theorem step_keeps {I : State → Prop} (h : KeptByWrites I) {s t : State} (hs : step s = .next t) : Keeps I s t := by
  obtain ⟨-, ⟨-, rfl⟩ | ⟨-, he⟩⟩ := step_cases hs
  · exact h.fault _ s
  · exact exec_keeps h he

/-- The state after reset is a boot without a program under the default parameters. -/
theorem reset_eq_boot : State.reset = boot defaultConfig [] := rfl

/-! ### The invariants of a run -/

theorem legal_keptByWrites : KeptByWrites State.Legal where
  fault _ _ h := h
  inc _ hp := fun ⟨_, rest⟩ => ⟨by simp only; omega, rest⟩
  push := moves_pushByte Keeps.refl fun _ _ h => h
  pop := moves_popByte Keeps.refl fun _ _ h => h
  jump _ := fun ⟨_, hps, hss, hos, hsc, htar⟩ => ⟨by simp [htar], hps, hss, hos, hsc, htar⟩
  halt _ h := h
  ps n _ := fun ⟨hpc, _, rest⟩ => ⟨hpc, n.isLt, rest⟩
  ss n _ := fun ⟨hpc, hps, _, rest⟩ => ⟨hpc, hps, n.isLt, rest⟩
  os _ hv _ := fun ⟨hpc, hps, hss, _, rest⟩ => ⟨hpc, hps, hss, hv, rest⟩
  tmp _ _ h := h
  set _ hos4 := fun ⟨hpc, hps, hss, hos, _, htar⟩ => ⟨hpc, hps, hss, hos, hos4, htar⟩
  lit _ := fun ⟨hpc, hps, hss, hos, hsc, htar⟩ => ⟨hpc, hps, hss, hos, (Nat.sub_le _ _).trans hsc, htar⟩

/-- Settles O39: each write of an instruction keeps the invariants, and so does the step made of them. -/
theorem legalKeptByStep : Obligations.LegalKeptByStep :=
  fun _ _ hs hstep => step_keeps legal_keptByWrites hstep hs

theorem boot_legal (cfg : Config) (file : List Byte) : (boot cfg file).Legal :=
  ⟨Nat.zero_le _, Nat.zero_lt_succ 3, Nat.zero_lt_succ 3, .inl rfl, Nat.zero_le _, rfl⟩

/-- Settles O38: the registers of a boot state are constants. -/
theorem legalAtReset : Obligations.LegalAtReset :=
  ⟨reset_eq_boot ▸ boot_legal defaultConfig [], boot_legal⟩

/-! ### Register widths -/

/-- What fits the narrowest legal width fits every legal width. -/
theorem lt_two_pow_of_le {v a b : Nat} (h : v < 2 ^ a) (hab : a ≤ b) : v < 2 ^ b :=
  h.trans_le (Nat.pow_le_pow_right (by decide) hab)

/-- A fill count is at most 1024, whatever the stack holds. -/
theorem size_lt_two_pow (st : ByteStack) {w : Nat} (hw : 11 ≤ w) : st.size.val < 2 ^ w :=
  lt_two_pow_of_le (a := 11) (st.size.isLt.trans (by decide)) hw

/-- Registers that fit under legal parameters. -/
def State.FitsLegally (s : State) : Prop := s.cfg.widths.wf = true ∧ s.Fits

theorem fitsLegally_keptByStk (s : State) (k : StackBank) : Keeps State.FitsLegally s { s with stk := k } := by
  rintro ⟨hw, hpc, hps, hss, hos, hsc, -⟩
  obtain ⟨-, -, -, -, w⟩ := (RegisterWidths.wf_iff _).1 hw
  exact ⟨hw, hpc, hps, hss, hos, hsc, fun i => size_lt_two_pow _ w⟩

theorem fitsLegally_keptByWrites : KeptByWrites State.FitsLegally where
  fault _ _ h := h
  inc s hp := fun ⟨hw, _, rest⟩ =>
    ⟨hw, lt_two_pow_of_le (a := 16) (by simp only; omega) ((RegisterWidths.wf_iff _).1 hw).1, rest⟩
  push := moves_pushByte Keeps.refl fitsLegally_keptByStk
  pop := moves_popByte Keeps.refl fitsLegally_keptByStk
  jump s := fun ⟨hw, _, rest⟩ => ⟨hw, lt_two_pow_of_le s.tar.isLt ((RegisterWidths.wf_iff _).1 hw).1, rest⟩
  halt _ h := h
  ps n _ := fun ⟨hw, hpc, _, rest⟩ =>
    have ⟨_, wsel, _⟩ := (RegisterWidths.wf_iff _).1 hw
    ⟨hw, hpc, lt_two_pow_of_le (a := 2) n.isLt wsel, rest⟩
  ss n _ := fun ⟨hw, hpc, hps, _, rest⟩ =>
    have ⟨_, wsel, _⟩ := (RegisterWidths.wf_iff _).1 hw
    ⟨hw, hpc, hps, lt_two_pow_of_le (a := 2) n.isLt wsel, rest⟩
  os v hv _ := fun ⟨hw, hpc, hps, hss, _, rest⟩ =>
    have ⟨_, _, wos, _⟩ := (RegisterWidths.wf_iff _).1 hw
    ⟨hw, hpc, hps, hss, lt_two_pow_of_le (a := 3) (by simp only; omega) wos, rest⟩
  tmp _ _ h := h
  set _ hos4 := fun ⟨hw, hpc, hps, hss, hos, _, rest⟩ =>
    have ⟨_, _, _, wsc, _⟩ := (RegisterWidths.wf_iff _).1 hw
    ⟨hw, hpc, hps, hss, hos, lt_two_pow_of_le (a := 3) (by simp only; omega) wsc, rest⟩
  lit _ := fun ⟨hw, hpc, hps, hss, hos, hsc, rest⟩ => ⟨hw, hpc, hps, hss, hos, (Nat.sub_le _ _).trans_lt hsc, rest⟩

/-- Settles O41: each value an instruction writes fits the narrowest legal width of its register. -/
theorem fitsKeptByStep : Obligations.FitsKeptByStep := fun _ _ hc hs hstep =>
  have ⟨_, hfits⟩ := step_keeps fitsLegally_keptByWrites hstep ⟨Config.widths_wf hc, hs⟩
  hfits

theorem boot_fits {cfg : Config} (file : List Byte) (h : cfg.wf = true) : (boot cfg file).Fits := by
  obtain ⟨-, -, wos, -, wsize⟩ := (RegisterWidths.wf_iff _).1 (Config.widths_wf h)
  exact ⟨Nat.two_pow_pos _, Nat.two_pow_pos _, Nat.two_pow_pos _, lt_two_pow_of_le (a := 3) (by decide : 1 < 2 ^ 3) wos,
    Nat.two_pow_pos _, fun i => size_lt_two_pow _ wsize⟩

/-- Settles O40: 0 fits every width, and 1 that of `os`. -/
theorem fitsAtReset : Obligations.FitsAtReset :=
  ⟨reset_eq_boot ▸ boot_fits [] (by decide : defaultConfig.wf = true), fun _ file h => boot_fits file h⟩

/-! ### Canonical memories -/

/-- A write of one stack keeps the canonical form when the new stack has it. -/
theorem State.Canonical.put {s : State} (h : s.Canonical) {i : StackIndex} {st : ByteStack} (hst : Memory.wf st.data) :
    State.Canonical { s with stk := s.stk.put i st } := by
  obtain ⟨hmem, hstk⟩ := h
  refine ⟨hmem, fun j => ?_⟩
  simp only [StackBank.get_put]
  split
  · exact hst
  · exact hstk j

theorem canonical_keptByPushByte (i : StackIndex) (b : Byte) : Moves (Keeps State.Canonical) (pushByte i b) := by
  intro s
  by_cases hroom : (s.stk.get i).size.val < 1024
  · obtain ⟨st, hst, -, hwf⟩ := ByteStack.push_ok hroom b
    rw [pushByte_ok hst]
    exact fun h => h.put (hwf (h.2 i))
  · rw [pushByte_full (by omega)]
    exact id

theorem canonical_keptByPopByte (i : StackIndex) : Moves (Keeps State.Canonical) (popByte i) := by
  intro s
  by_cases hsome : 0 < (s.stk.get i).size.val
  · rw [popByte_ok hsome]
    exact fun h => h.put (h.2 i)
  · rw [popByte_empty (by omega)]
    exact id

theorem canonical_keptByWrites : KeptByWrites State.Canonical where
  fault _ _ h := h
  inc _ _ h := h
  push := canonical_keptByPushByte
  pop := canonical_keptByPopByte
  jump _ h := h
  halt _ h := h
  ps _ _ h := h
  ss _ _ h := h
  os _ _ _ h := h
  tmp _ _ h := h
  set _ _ h := h
  lit _ h := h

/-- Settles O44: only pushes and pops touch a memory, a push writes below 1024 and a pop writes no byte. -/
theorem canonicalKeptByStep : Obligations.CanonicalKeptByStep :=
  fun _ _ hs hstep => step_keeps canonical_keptByWrites hstep hs

theorem boot_get (cfg : Config) (file : List Byte) (i : StackIndex) : (boot cfg file).stk.get i = ByteStack.empty :=
  StackBank.get_uniform _ i

theorem boot_canonical (cfg : Config) (file : List Byte) : (boot cfg file).Canonical := by
  refine ⟨loadImage_wf file, fun i => ?_⟩
  rw [boot_get]
  exact loadImage_wf []

/-- Settles O43: a loaded image is in canonical form, and an empty stack lists no cell. -/
theorem canonicalAtReset : Obligations.CanonicalAtReset :=
  ⟨reset_eq_boot ▸ boot_canonical defaultConfig [], boot_canonical⟩

/-! ### What no step writes -/

/-- `f` reads neither `pc` nor the status nor a stack, the parts of the state that most instructions write. -/
structure ReadsRegisters {α : Type} (f : State → α) : Prop where
  pc : ∀ (s : State) v, f { s with pc := v } = f s := by intros; rfl
  status : ∀ (s : State) v, f { s with status := v } = f s := by intros; rfl
  stk : ∀ (s : State) v, f { s with stk := v } = f s := by intros; rfl

/-- What reads registers only changes by the register writes of the instruction's own kind; of a register that `f` does
not read nothing is asked. -/
theorem exec_keepsField {α : Type} (f : State → α) (h : ReadsRegisters f) {i : Instr} {s t : State}
    (he : exec i s = .next t)
    (ps : i ∈ [Instr.psa, .psb, .psc, .psd] → ∀ (s : State) v, f { s with ps := v } = f s := by intros; rfl)
    (ss : i ∈ [Instr.ssa, .ssb, .ssc, .ssd] → ∀ (s : State) v, f { s with ss := v } = f s := by intros; rfl)
    (os : i ∈ [Instr.os1, .os2, .os4] → ∀ (s : State) v, f { s with os := v } = f s := by intros; rfl)
    (tmp : i = .pop → ∀ (s : State) v, f { s with tmp := v } = f s := by intros; rfl)
    (sc : i = .set ∨ (∃ b, i = .lit b) → ∀ (s : State) v, f { s with sc := v } = f s := by intros; rfl) :
    f t = f s :=
  exec_moves (R := fun s t => f t = f s) (fun _ => rfl) (fun _ _ _ hab hbc => hbc.trans hab)
    (fun k s => h.status s (.faulted k)) (moves_incrementPc (fun _ => rfl) (fun s _ => h.pc s _))
    (moves_pushByte (fun _ => rfl) h.stk) (moves_popByte (fun _ => rfl) h.stk) (fun s => h.pc s _)
    (fun s => h.status s .halted) i
    (ps := fun _ hi s => ps hi s _) (ss := fun _ hi s => ss hi s _) (os := fun _ _ hi s => os hi s _)
    (tmp := fun hi _ s => tmp hi s _) (set := fun hi s _ _ => sc (.inl hi) s _) (lit := fun hi s => sc (.inr hi) s _) he

theorem exec_keeps_tar_mem_cfg {i : Instr} {s t : State} (h : exec i s = .next t) :
    (t.tar, t.mem, t.cfg) = (s.tar, s.mem, s.cfg) :=
  exec_keepsField (fun s => (s.tar, s.mem, s.cfg)) {} h

theorem step_keeps_tar_mem_cfg {s t : State} (h : step s = .next t) : t.tar = s.tar ∧ t.mem = s.mem ∧ t.cfg = s.cfg := by
  obtain ⟨-, ⟨-, rfl⟩ | ⟨-, he⟩⟩ := step_cases h
  · exact ⟨rfl, rfl, rfl⟩
  · simpa only [Prod.mk.injEq] using exec_keeps_tar_mem_cfg he

/-- A run begins with `tar` = 0, and no step writes it. -/
theorem State.Reachable.tar_eq_zero {s : State} (h : s.Reachable) : s.tar = 0#16 := by
  induction h with
  | boot cfg file => rfl
  | step _ hstep ih => exact (step_keeps_tar_mem_cfg hstep).1.trans ih

/-- Settles O45: the frame of a step, and induction along a run. -/
theorem noStepWritesTarOrProgram : Obligations.NoStepWritesTarOrProgram :=
  ⟨fun _ _ => step_keeps_tar_mem_cfg, takeReset_tar, fun _ => State.Reachable.tar_eq_zero⟩

/-- Settles O46: `ps`, `ss` and `os` are asked of the selects of their own kind only. -/
theorem onlySelectsWriteSelectors : Obligations.OnlySelectsWriteSelectors := by
  intro i s t he
  refine ⟨fun hi => ?ps, fun hi => ?ss, fun hi => ?os⟩
  case ps => exact exec_keepsField State.ps {} he (ps := fun h => absurd h hi)
  case ss => exact exec_keepsField State.ss {} he (ss := fun h => absurd h hi)
  case os => exact exec_keepsField State.os {} he (os := fun h => absurd h hi)

/-- Settles O47: `tmp` is asked of POP only, and `sc` of SET and LIT only. -/
theorem onlyPopWritesTmp : Obligations.OnlyPopWritesTmp := by
  intro i s t he
  refine ⟨fun hi => ?tmp, fun hset hlit => ?sc⟩
  case tmp => exact exec_keepsField State.tmp {} he (tmp := fun h => absurd h hi)
  case sc =>
    have hi : ¬ (i = .set ∨ ∃ b, i = .lit b) := by
      rintro (h | ⟨b, h⟩)
      · exact hset h
      · exact hlit b h
    exact exec_keepsField State.sc {} he (sc := fun h => absurd h hi)

/-! ### Stacks that an instruction does not reach -/

/-- All that `settle` can do: take the fault of the execute phase, or end the step without or with the increment or with
its fault (R100, R105). -/
theorem settle_cases {a : Action Advance} {s t : State} (h : settle a s = .next t) :
    (∃ k u, a s = .error k u ∧ t = takeFault k u) ∨
      ∃ adv u, a s = .ok adv u ∧
        (t = u ∨ t = { u with pc := u.pc + 1 } ∨ t = takeFault .programCounterOutOfBounds u) := by
  cases e : a s with
  | error k u =>
    rw [settle_error e] at h
    cases h
    exact .inl ⟨k, u, rfl, rfl⟩
  | ok adv u =>
    refine .inr ⟨adv, u, rfl, ?_⟩
    cases adv with
    | stay =>
      rw [settle_stay e] at h
      cases h
      exact .inl rfl
    | increment =>
      by_cases hr : u.status = .running
      · have hends := settle_increment e hr
        rcases Nat.lt_or_ge u.pc 1023 with hpc | hpc
        · rw [hends.1 hpc] at h
          cases h
          exact .inr (.inl rfl)
        · rw [hends.2 hpc] at h
          cases h
          exact .inr (.inr rfl)
      · rw [settle_stopped e hr] at h
        cases h
        exact .inl rfl

/-- Selects, SET, JMP, HALT and NOP write no stack. -/
theorem phase_keepsBank {i : Instr} (hi : i ∉ [Instr.pop, .push, .dup, .jl, .je]) (hl : ∀ b, i ≠ .lit b) :
    Moves (fun s t => t.stk = s.stk) (phaseOf i) := by
  have refl : ∀ s : State, s.stk = s.stk := fun _ => rfl
  have trans : ∀ a b c : State, b.stk = a.stk → c.stk = b.stk → c.stk = a.stk := fun _ _ _ hab hbc => hbc.trans hab
  cases i with
  | os1 | os2 | os4 | psa | psb | psc | psd | ssa | ssb | ssc | ssd | nop => exact fun _ => rfl
  | set => exact moves_bind trans (moves_operandSize refl) fun _ _ => rfl
  | jmp =>
    refine moves_bind trans (moves_readState refl _) fun _ => moves_bind trans (fun _ => rfl) fun _ =>
      moves_bind trans (moves_readState refl _) fun c => ?_
    cases c <;> exact moves_pure refl _
  | halt =>
    refine moves_bind trans (moves_readState refl _) fun c => ?_
    cases c
    · exact fun _ => rfl
    · exact moves_bind trans (moves_incrementPc refl fun _ _ => rfl) fun _ _ => rfl
  | pop | push | dup | jl | je => exact absurd (by simp) hi
  | lit b => exact absurd rfl (hl b)

theorem exec_keepsBank {i : Instr} (hi : i ∉ [Instr.pop, .push, .dup, .jl, .je]) (hl : ∀ b, i ≠ .lit b) {s t : State}
    (h : exec i s = .next t) : t.stk = s.stk := by
  rw [exec_eq_settle] at h
  exact settle_moves (R := fun s t => t.stk = s.stk) (fun _ => rfl) (fun _ _ _ hab hbc => hbc.trans hab)
    (fun _ _ => rfl) (moves_incrementPc (fun _ => rfl) fun _ _ => rfl) (phase_keepsBank hi hl) h

/-- A stack that the selectors of `i` do not name is as before, whatever `i` ends in (R31). -/
theorem exec_keepsStack {i : Instr} {s t : State} (h : exec i s = .next t) {j : StackIndex} (hps : s.ps ≠ j.val)
    (hss : i ∈ [Instr.jl, .je] → s.ss ≠ j.val) : t.stk.get j = s.stk.get j := by
  by_cases hi : i = .halt
  · subst hi
    rw [exec_keepsBank (by decide) (fun _ => Instr.noConfusion) h]
  · have hspec := phase_spec i hi s s (During.start i s)
    rw [exec_eq_settle] at h
    rcases settle_cases h with ⟨k, u, hu, rfl⟩ | ⟨adv, u, hu, hend⟩
    · rw [hu] at hspec
      obtain ⟨-, hduring⟩ := hspec
      exact hduring.stk j hps hss
    · rw [hu] at hspec
      obtain ⟨hkept, -⟩ := hspec
      have hstk : t.stk = u.stk := by rcases hend with rfl | rfl | rfl <;> rfl
      rw [hstk]
      exact hkept.stk j hps hss

/-- Settles O48: what each execute phase leaves of the bank, and the end of the step touches no stack. -/
theorem otherStacksUnchanged : Obligations.OtherStacksUnchanged :=
  fun _ _ _ he => ⟨fun hi hl => exec_keepsBank hi hl he, fun _ => exec_keepsStack he⟩

end Sys2Proof.Machine
end

section
/-! When a machine steps, and how each instruction ends its step (40_dispatcher.md R100 to R110; 60_exceptions.md
section 1). -/

namespace Sys2Proof.Machine

/-! ### Totality and the stops -/

/-- No instruction stops the model: a fault of the machine is a next state (R110, R186). -/
theorem exec_total (i : Instr) (s : State) : ∃ t, exec i s = .next t := by
  rw [exec_eq_settle]
  exact settle_next _ s

/-- A fetch outside `mem` (R102, D13). -/
theorem step_eq_takeFault {s : State} (hr : s.status = .running) (hp : 1024 ≤ s.pc) :
    step s = .next (takeFault .programCounterOutOfBounds s) := by
  simp [step, hr, fetch, Nat.not_lt.2 hp]

/-- Settles O8: a running state fetches a byte or faults, and every instruction has a next state. -/
theorem runningStateHasANextState : Obligations.RunningStateHasANextState := by
  intro s hr
  rcases Nat.lt_or_ge s.pc 1024 with hp | hp
  · rw [step_eq_exec hr hp]
    exact exec_total _ s
  · exact ⟨_, step_eq_takeFault hr hp⟩

/-- Settles O5: the fetch faults before anything is read. -/
theorem fetchOutsideMemoryFaults : Obligations.FetchOutsideMemoryFaults :=
  fun _ => step_eq_takeFault

/-- Settles O4: one byte decodes to one instruction, a literal while `sc > 0`. -/
theorem stepRunsTheDecodedInstruction : Obligations.StepRunsTheDecodedInstruction := by
  intro s i hr hp hdec
  obtain ⟨rfl, -⟩ : decode s.cfg.opcodeMap s.sc (Memory.read s.mem s.pc) = i ∧ [] = ([] : List Byte) := by
    simpa [decodeBytes] using hdec
  exact ⟨step_eq_exec hr hp, step_eq_execLit hr hp⟩

/-- With reset released and the machine running, the host can only assert reset (R200, U15). -/
theorem hostAct_of_running {s : State} (hr : s.status = .running) {a : HostAction} {b : Block}
    (h : hostAct a ⟨s, false⟩ = .next b) : b = ⟨s, false⟩ ∨ a = .assertReset := by
  cases a with
  | assertReset => exact .inr rfl
  | releaseReset => cases h; exact .inl rfl
  | load file => simp [hostAct_load, mayLoad, isTerminal, hr] at h
  | readReport => simp [hostAct_readReport, hr] at h

/-- Settles O6: `step` matches on the status, and each move of the host is looked at. -/
theorem terminalStatesHaveNoStep : Obligations.TerminalStatesHaveNoStep := by
  intro s
  refine ⟨fun h => ?halted, fun k h => ?faulted, fun hr a b => hostAct_of_running hr⟩
  case halted => rw [step, h]
  case faulted => rw [step, h]

/-! ### HALT -/

theorem execHalt_of_keepsPc {s : State} (h : s.cfg.haltIncrementsPc = false) :
    exec .halt s = .next { s with status := .halted } := by
  rw [exec_eq_settle]
  exact settle_stopped (by simp [phaseOf, haltPhase, h]) (by simp)

theorem incrementPc_ok {s : State} (h : s.pc < 1023) : incrementPc s = .ok () { s with pc := s.pc + 1 } :=
  if_neg (by omega)

theorem incrementPc_error {s : State} (h : 1023 ≤ s.pc) : incrementPc s = .error .programCounterOutOfBounds s :=
  if_pos (by omega)

theorem haltPhase_of_increments {s : State} (h : s.cfg.haltIncrementsPc = true) :
    haltPhase s = (incrementPc >>= fun _ => writeStatus .halted >>= fun _ => pure Advance.increment) s := by
  simp only [haltPhase, readState_bind, h, if_true]

theorem execHalt_of_incrementsPc {s : State} (h : s.cfg.haltIncrementsPc = true) (hp : s.pc < 1023) :
    exec .halt s = .next { s with pc := s.pc + 1, status := .halted } := by
  rw [exec_eq_settle]
  exact settle_stopped (by rw [phaseOf, haltPhase_of_increments h, bind_ok (incrementPc_ok hp)]; rfl) (by simp)

theorem execHalt_outOfBounds {s : State} (h : s.cfg.haltIncrementsPc = true) (hp : 1023 ≤ s.pc) :
    exec .halt s = .next (takeFault .programCounterOutOfBounds s) := by
  rw [exec_eq_settle]
  exact settle_error (by rw [phaseOf, haltPhase_of_increments h, bind_error (incrementPc_error hp)])

/-- Settles O10: HALT without the increment, with it, and with its fault. -/
theorem haltEndsTheRun : Obligations.HaltEndsTheRun :=
  fun _ => ⟨execHalt_of_keepsPc, execHalt_of_incrementsPc, execHalt_outOfBounds⟩

/-- Under either value of `HALT_INCREMENTS_PC`, HALT halts or raises the fault of its increment (D5). -/
theorem execHalt_cases {s t : State} (h : exec .halt s = .next t) :
    t.status = .halted ∨ t = takeFault .programCounterOutOfBounds s := by
  cases hc : s.cfg.haltIncrementsPc with
  | false =>
    rw [execHalt_of_keepsPc hc] at h
    cases h
    exact .inl rfl
  | true =>
    rcases Nat.lt_or_ge s.pc 1023 with hp | hp
    · rw [execHalt_of_incrementsPc hc hp] at h
      cases h
      exact .inl rfl
    · rw [execHalt_outOfBounds hc hp] at h
      cases h
      exact .inr rfl

/-! ### The other instructions -/

/-- Every instruction that increments can raise the fault of the increment. -/
theorem programCounterOutOfBounds_mem_mayRaise {i : Instr} (hi : i ≠ .halt) :
    .programCounterOutOfBounds ∈ mayRaise i := by
  cases i <;> simp [mayRaise] at hi ⊢

/-- From a running state, an instruction other than HALT goes on or raises one of its faults. -/
theorem exec_status {i : Instr} (hi : i ≠ .halt) {s t : State} (hr : s.status = .running) (h : exec i s = .next t) :
    t.status = .running ∨ ∃ k ∈ mayRaise i, t.status = .faulted k := by
  rcases exec_ends i hi hr h with ⟨k, u, rfl, ⟨hk, -⟩, -⟩ | ⟨adv, u, hkept, -, hend⟩
  · exact .inr ⟨k, hk, rfl⟩
  · rcases hend with ⟨-, rfl⟩ | ⟨-, -, rfl⟩ | ⟨-, -, rfl⟩
    · exact .inl (hkept.status.trans hr)
    · exact .inl (hkept.status.trans hr)
    · exact .inr ⟨_, programCounterOutOfBounds_mem_mayRaise hi, rfl⟩

/-- Settles O49: HALT halts, and any other instruction goes on or raises a fault of its row. -/
theorem howEachInstructionEnds : Obligations.HowEachInstructionEnds := by
  intro i s t hr hc h
  by_cases hi : i = .halt
  · subst hi
    rw [execHalt_of_keepsPc hc] at h
    cases h
    exact .inr (.inl ⟨rfl, rfl⟩)
  · rcases exec_status hi hr h with ht | ht
    · exact .inl ⟨ht, hi⟩
    · exact .inr (.inr ht)

/-- Settles O7: a fault of the execute phase leaves `pc`, and at 1024 or above the increment faults and leaves it too. -/
theorem incrementDoesNotWrap : Obligations.IncrementDoesNotWrap := by
  intro i s t hr hp hi h
  have hhalt : i ≠ .halt := by rintro rfl; exact hi (by simp)
  have hjump : i ∉ jumps := fun hj => hi (List.mem_cons_of_mem _ hj)
  rcases exec_ends i hhalt hr h with ⟨k, u, rfl, -, hduring⟩ | ⟨adv, u, -, hgoes, hend⟩
  · exact ⟨hduring.pc, k, rfl⟩
  · obtain ⟨rfl, hpc⟩ : adv = .increment ∧ u.pc = s.pc := hgoes.resolve_right fun hj => hjump hj.1
    rcases hend with ⟨hadv, -⟩ | ⟨-, hin, -⟩ | ⟨-, -, rfl⟩
    · cases hadv
    · omega
    · exact ⟨hpc, _, rfl⟩

/-- The check faults of a step say that a check was not met: none of them comes from a state with legal selectors and
size (R182, R183). -/
theorem exec_status_of_legal {i : Instr} {s t : State} (hs : s.Legal) (hr : s.status = .running)
    (h : exec i s = .next t) :
    t.status ≠ .faulted .invalidStackSelector ∧ t.status ≠ .faulted .invalidOperandSize := by
  obtain ⟨-, hps, hss, hos, -, -⟩ := hs
  by_cases hi : i = .halt
  · subst hi
    rcases execHalt_cases h with ht | rfl
    · simp [ht]
    · simp
  · rcases exec_ends i hi hr h with ⟨k, u, rfl, ⟨-, -, hsize, hsel⟩, -⟩ | ⟨adv, u, hkept, -, hend⟩
    · refine ⟨fun hk => ?_, fun hk => ?_⟩ <;> cases hk
      · have := hsel rfl
        omega
      · have := hsize rfl
        omega
    · have hu : u.status = .running := hkept.status.trans hr
      rcases hend with ⟨-, rfl⟩ | ⟨-, -, rfl⟩ | ⟨-, -, rfl⟩ <;> simp [hu]

/-- Settles O42: legal selectors and size pass every check, and a legal `pc` is inside `mem`. -/
theorem legalStateRaisesNoCheckFault : Obligations.LegalStateRaisesNoCheckFault := by
  intro s hs hr
  have hstep := step_eq_exec hr (Nat.lt_succ_of_le hs.1)
  obtain ⟨t, ht⟩ := exec_total (decode s.cfg.opcodeMap s.sc (Memory.read s.mem s.pc)) s
  obtain ⟨hsel, hsize⟩ := exec_status_of_legal hs hr ht
  exact ⟨t, hstep.trans ht, hsel, hsize, hstep⟩

/-! ### The next `pc` -/

/-- Where the `pc` of a faulted instruction stands (R187, R205; D10). -/
theorem exec_pc_of_faulted {i : Instr} {s t : State} {k : FaultKind} (hr : s.status = .running) (h : exec i s = .next t)
    (ht : t.status = .faulted k) :
    t.pc = s.pc ∨ (t.pc = s.tar.toNat ∧ k = .programCounterOutOfBounds ∧ 1023 ≤ s.tar.toNat ∧ i ∈ jumps) := by
  by_cases hi : i = .halt
  · subst hi
    rcases execHalt_cases h with hh | rfl
    · rw [hh] at ht
      cases ht
    · exact .inl rfl
  · rcases exec_ends i hi hr h with ⟨k', u, rfl, -, hduring⟩ | ⟨adv, u, hkept, hgoes, hend⟩
    · exact .inl hduring.pc
    · have hu : u.status = .running := hkept.status.trans hr
      rcases hend with ⟨-, rfl⟩ | ⟨-, -, rfl⟩ | ⟨-, hout, rfl⟩
      · simp [hu] at ht
      · simp [hu] at ht
      · cases ht
        rcases hgoes with ⟨-, hpc⟩ | ⟨hj, hpc, -⟩
        · exact .inl hpc
        · exact .inr ⟨hpc, rfl, by omega, hj⟩

/-- Settles O50: a fetch fault keeps `pc`, and so does a fault of an instruction but for a jump beyond the end of `mem`. -/
theorem pcOfAFaultedState : Obligations.PcOfAFaultedState := by
  intro s t k hstep ht
  obtain ⟨hr, ⟨-, rfl⟩ | ⟨-, he⟩⟩ := step_cases hstep
  · exact .inl rfl
  · exact exec_pc_of_faulted hr he ht

/-- Where an instruction that goes on leaves `pc` (R105, R165). -/
theorem exec_pc_of_running {i : Instr} {s t : State} (hr : s.status = .running) (h : exec i s = .next t)
    (ht : t.status = .running) :
    t.pc = s.pc + 1 ∨ (i ∈ jumps ∧ t.pc = s.tar.toNat + (if s.cfg.jumpPostIncrement then 1 else 0)) := by
  by_cases hi : i = .halt
  · subst hi
    rcases execHalt_cases h with hh | rfl
    · rw [hh] at ht
      cases ht
    · cases ht
  · rcases exec_ends i hi hr h with ⟨k, u, rfl, -⟩ | ⟨adv, u, -, hgoes, hend⟩
    · cases ht
    · rcases hgoes with ⟨rfl, hpc⟩ | ⟨hj, hpc, hadv⟩
      · rcases hend with ⟨hstay, -⟩ | ⟨-, -, rfl⟩ | ⟨-, -, rfl⟩
        · cases hstay
        · exact .inl (congrArg (· + 1) hpc)
        · cases ht
      · refine .inr ⟨hj, ?_⟩
        rcases hend with ⟨rfl, rfl⟩ | ⟨rfl, -, rfl⟩ | ⟨-, -, rfl⟩
        · have hc : s.cfg.jumpPostIncrement = false := by simpa using hadv
          simpa [hc] using hpc
        · have hc : s.cfg.jumpPostIncrement = true := by simpa using hadv
          simpa [hc] using hpc
        · cases ht

/-- Settles O51: a step that goes on is one of an instruction that goes on. -/
theorem nextAddress : Obligations.NextAddress := by
  intro s t hstep ht
  obtain ⟨hr, ⟨-, rfl⟩ | ⟨-, he⟩⟩ := step_cases hstep
  · cases ht
  · exact exec_pc_of_running hr he ht

end Sys2Proof.Machine
end

section
/-! Stale bytes are never read (10_state.md R32): a relation between two runs, followed through the sequencing of actions. -/

namespace Sys2Proof.Machine

/-! ### Stacks with the same valid bytes -/

theorem ByteStack.SameValid.topByte {x y : ByteStack} (h : x.SameValid y) {k : Nat} (hk : k < x.size.val) :
    x.topByte k = y.topByte k := by
  obtain ⟨hsize, hread⟩ := h
  rw [ByteStack.topByte, ByteStack.topByte, ← hsize]
  exact hread _ (by omega)

theorem ByteStack.SameValid.drop {x y : ByteStack} (h : x.SameValid y) (n : Nat) : (x.drop n).SameValid (y.drop n) := by
  obtain ⟨hsize, hread⟩ := h
  refine ⟨Fin.ext (by simp [hsize]), fun k hk => hread k ?_⟩
  rw [ByteStack.drop_size] at hk
  omega

/-- The same bytes pushed onto stacks with the same valid bytes. -/
theorem ByteStack.SameValid.push {x y x' y' : ByteStack} {bs : List Byte} (h : x.SameValid y) (hx : x'.PushedOnto x bs)
    (hy : y'.PushedOnto y bs) : x'.SameValid y' := by
  obtain ⟨hsize, hread⟩ := h
  obtain ⟨hxsize, hxnew, hxold⟩ := hx
  obtain ⟨hysize, hynew, hyold⟩ := hy
  refine ⟨Fin.ext (by rw [hxsize, hysize, hsize]), fun k hk => ?_⟩
  rcases Nat.lt_or_ge k x.size.val with hlt | hge
  · rw [hxold k (.inl hlt), hyold k (.inl (hsize ▸ hlt))]
    exact hread k hlt
  · obtain ⟨d, rfl⟩ := Nat.exists_eq_add_of_le hge
    rw [hxnew d (by omega), hsize, hynew d (by omega)]

/-! ### States that differ in stale bytes only -/

theorem State.SameButStale.exists_bank {s t : State} (h : s.SameButStale t) :
    ∃ k : StackBank, t = { s with stk := k } ∧ ∀ i, (s.stk.get i).SameValid (k.get i) :=
  ⟨t.stk, h.2, h.1⟩

theorem State.sameButStale_of_bank {s : State} {k : StackBank} (h : ∀ i, (s.stk.get i).SameValid (k.get i)) :
    s.SameButStale { s with stk := k } :=
  ⟨h, rfl⟩

theorem State.SameButStale.put {s t : State} (h : s.SameButStale t) {i : StackIndex} {x y : ByteStack}
    (hxy : x.SameValid y) :
    State.SameButStale { s with stk := s.stk.put i x } { t with stk := t.stk.put i y } := by
  obtain ⟨k, rfl, hk⟩ := h.exists_bank
  refine ⟨fun j => ?_, rfl⟩
  simp only [StackBank.get_put]
  split
  · exact hxy
  · exact hk j

/-! ### Actions that do not read stale bytes -/

/-- Two answers that agree but for stale bytes: one value or one fault. -/
inductive SameAnswer {α : Type} : EStateM.Result FaultKind State α → EStateM.Result FaultKind State α → Prop where
  | ok {s t : State} (x : α) (h : s.SameButStale t) : SameAnswer (.ok x s) (.ok x t)
  | error {s t : State} (k : FaultKind) (h : s.SameButStale t) : SameAnswer (.error k s) (.error k t)

/-- From states that differ in stale bytes only the action gives answers that do. -/
def BlindToStale {α : Type} (a : Action α) : Prop :=
  ∀ s t : State, s.SameButStale t → SameAnswer (a s) (a t)

theorem blind_pure {α : Type} (x : α) : BlindToStale (pure x : Action α) := fun _ _ h => .ok x h

theorem blind_raise {α : Type} (k : FaultKind) : BlindToStale (raise k : Action α) := fun _ _ h => .error k h

theorem blind_readState {α : Type} {f : State → α} (hf : ∀ (s : State) k, f { s with stk := k } = f s) :
    BlindToStale (readState f) := by
  intro s t h
  obtain ⟨k, rfl, -⟩ := h.exists_bank
  rw [readState_apply, readState_apply, hf s k]
  exact .ok _ h

/-- A write of something other than a stack. -/
theorem blind_write {update : State → State}
    (hu : ∀ (s : State) k, update { s with stk := k } = { update s with stk := k })
    (hs : ∀ s : State, (update s).stk = s.stk) : BlindToStale (fun s => .ok () (update s) : Action Unit) := by
  intro s t h
  obtain ⟨k, rfl, hk⟩ := h.exists_bank
  refine .ok () ?_
  rw [hu s k]
  exact State.sameButStale_of_bank ((hs s).symm ▸ hk)

theorem blind_bind {α β : Type} {x : Action α} {f : α → Action β} (hx : BlindToStale x)
    (hf : ∀ a, BlindToStale (f a)) :
    BlindToStale (x >>= f) := by
  intro s t h
  have hxst := hx s t h
  cases hs : x s with
  | ok a s' =>
    rw [hs] at hxst
    cases ht : x t with
    | ok b t' =>
      rw [ht] at hxst
      cases hxst with
      | ok _ h' => rw [bind_ok hs, bind_ok ht]; exact hf a s' t' h'
    | error k t' => rw [ht] at hxst; cases hxst
  | error k s' =>
    rw [hs] at hxst
    cases ht : x t with
    | ok b t' => rw [ht] at hxst; cases hxst
    | error l t' =>
      rw [ht] at hxst
      cases hxst with
      | error _ h' => rw [bind_error hs, bind_error ht]; exact .error k h'

theorem blind_popByte (i : StackIndex) : BlindToStale (popByte i) := by
  intro s t h
  have hv := h.1 i
  rcases Nat.eq_zero_or_pos (s.stk.get i).size.val with h0 | hpos
  · rw [popByte_empty h0, popByte_empty (hv.1 ▸ h0)]
    exact .error _ h
  · rw [popByte_ok hpos, popByte_ok (hv.1 ▸ hpos), ← hv.topByte hpos]
    exact .ok _ (h.put (hv.drop 1))

theorem blind_pushByte (i : StackIndex) (b : Byte) : BlindToStale (pushByte i b) := by
  intro s t h
  have hv := h.1 i
  rcases Nat.lt_or_ge (s.stk.get i).size.val 1024 with hroom | hfull
  · obtain ⟨x, hx, hpx, -⟩ := ByteStack.push_ok hroom b
    obtain ⟨y, hy, hpy, -⟩ := ByteStack.push_ok (st := t.stk.get i) (hv.1 ▸ hroom) b
    rw [pushByte_ok hx, pushByte_ok hy]
    exact .ok _ (h.put (hv.push hpx hpy))
  · rw [pushByte_full hfull, pushByte_full (hv.1 ▸ hfull)]
    exact .error _ h

theorem blind_popN (i : StackIndex) (n : Nat) : BlindToStale (popN i n) := by
  induction n with
  | zero => exact blind_pure _
  | succ n ih => exact blind_bind (blind_popByte i) fun _ => blind_bind ih fun _ => blind_pure _

theorem blind_pushAll (i : StackIndex) (bs : List Byte) : BlindToStale (pushAll i bs) := by
  induction bs with
  | nil => exact blind_pure _
  | cons b bs ih => exact blind_bind (blind_pushByte i b) fun _ => ih

theorem blind_pushBack (i : StackIndex) (bs : List Byte) : BlindToStale (pushBack i bs) := blind_pushAll i bs.reverse

theorem blind_operandSize : BlindToStale operandSize := by
  refine blind_bind (blind_readState fun _ _ => rfl) fun v => ?_
  cases legalSize v with
  | some z => exact blind_pure z
  | none => exact blind_raise _

theorem blind_requestStack (v : Nat) : BlindToStale (requestStack v) := by
  unfold requestStack
  split
  · exact blind_pure _
  · exact blind_raise _

theorem blind_primary : BlindToStale primary := blind_bind (blind_readState fun _ _ => rfl) blind_requestStack

theorem blind_secondary : BlindToStale secondary := blind_bind (blind_readState fun _ _ => rfl) blind_requestStack

theorem blind_peek (i : StackIndex) (n : Nat) : BlindToStale (peek i n) :=
  blind_bind (blind_popN i n) fun _ => blind_bind (blind_pushBack i _) fun _ => blind_pure _

theorem blind_peekBoth (i j : StackIndex) (n : Nat) : BlindToStale (peekBoth i j n) :=
  blind_bind (blind_peek i n) fun _ => blind_bind (blind_peek j n) fun _ => blind_pure _

theorem blind_peekInterleaved (i : StackIndex) (n : Nat) : BlindToStale (peekInterleaved i n) :=
  blind_bind (blind_popN i n) fun _ => blind_bind (blind_popN i n) fun _ => blind_bind (blind_pushBack i _) fun _ =>
    blind_bind (blind_pushBack i _) fun _ => blind_pure _

theorem blind_peekOperands (i j : StackIndex) (n : Nat) : BlindToStale (peekOperands i j n) := by
  refine blind_bind (blind_readState fun _ _ => rfl) fun a => ?_
  cases a with
  | sequential => exact blind_peekBoth i j n
  | interleaved =>
    show BlindToStale (if i = j then peekInterleaved i n else peekBoth i j n)
    split
    · exact blind_peekInterleaved i n
    · exact blind_peekBoth i j n

theorem blind_incrementPc : BlindToStale incrementPc := by
  intro s t h
  obtain ⟨k, rfl, hk⟩ := h.exists_bank
  rcases Nat.lt_or_ge s.pc 1023 with hp | hp
  · rw [incrementPc_ok hp, incrementPc_ok (s := { s with stk := k }) hp]
    exact .ok _ (State.sameButStale_of_bank (s := { s with pc := s.pc + 1 }) hk)
  · rw [incrementPc_error hp, incrementPc_error (s := { s with stk := k }) hp]
    exact .error _ h

/-! ### The execute phases -/

theorem blind_writePc (v : Nat) : BlindToStale (writePc v) := blind_write (fun _ _ => rfl) fun _ => rfl

theorem blind_writeSc (v : Nat) : BlindToStale (writeSc v) := blind_write (fun _ _ => rfl) fun _ => rfl

theorem blind_writeTmp (v : Word) : BlindToStale (writeTmp v) := blind_write (fun _ _ => rfl) fun _ => rfl

theorem blind_writeStatus (v : Status) : BlindToStale (writeStatus v) := blind_write (fun _ _ => rfl) fun _ => rfl

theorem blind_selectPrimary (n : StackName) : BlindToStale (selectPrimary n) :=
  blind_bind (blind_readState fun _ _ => rfl) fun _ =>
    blind_bind (blind_write (fun _ _ => rfl) fun _ => rfl) fun _ => blind_pure _

theorem blind_selectSecondary (n : StackName) : BlindToStale (selectSecondary n) :=
  blind_bind (blind_readState fun _ _ => rfl) fun _ =>
    blind_bind (blind_write (fun _ _ => rfl) fun _ => rfl) fun _ => blind_pure _

theorem blind_selectSize (v : Nat) : BlindToStale (selectSize v) :=
  blind_bind (blind_write (fun _ _ => rfl) fun _ => rfl) fun _ => blind_pure _

theorem blind_takeJump : BlindToStale takeJump :=
  blind_bind (blind_readState fun _ _ => rfl) fun _ => blind_bind (blind_writePc _) fun _ =>
    blind_bind (blind_readState fun _ _ => rfl) fun c => by cases c <;> exact blind_pure _

theorem blind_compareJump (taken : List Byte → List Byte → Bool) : BlindToStale (compareJump taken) := by
  refine blind_bind blind_operandSize fun _ => blind_bind blind_primary fun _ => blind_bind blind_secondary fun _ =>
    blind_bind (blind_peekOperands _ _ _) fun _ => ?_
  split
  · exact blind_takeJump
  · exact blind_pure _

theorem blind_popPhase : BlindToStale popPhase :=
  blind_bind blind_operandSize fun _ => blind_bind blind_primary fun _ => blind_bind (blind_popN _ _) fun _ =>
    blind_bind (blind_readState fun _ _ => rfl) fun _ => blind_bind (blind_readState fun _ _ => rfl) fun _ =>
      blind_bind (blind_readState fun _ _ => rfl) fun _ => blind_bind (blind_writeTmp _) fun _ => blind_pure _

theorem blind_pushPhase : BlindToStale pushPhase :=
  blind_bind blind_operandSize fun _ => blind_bind blind_primary fun _ => blind_bind (blind_readState fun _ _ => rfl)
    fun _ => blind_bind (blind_pushAll _ _) fun _ => blind_pure _

theorem blind_dupPhase : BlindToStale dupPhase :=
  blind_bind blind_operandSize fun _ => blind_bind blind_primary fun _ => blind_bind (blind_popN _ _) fun _ =>
    blind_bind (blind_pushBack _ _) fun _ => blind_bind (blind_pushBack _ _) fun _ => blind_pure _

theorem blind_setPhase : BlindToStale setPhase :=
  blind_bind blind_operandSize fun _ => blind_bind (blind_readState fun _ _ => rfl) fun _ =>
    blind_bind (blind_writeSc _) fun _ => blind_pure _

theorem blind_litPhase (b : Byte) : BlindToStale (litPhase b) :=
  blind_bind blind_primary fun _ => blind_bind (blind_pushByte _ b) fun _ =>
    blind_bind (blind_readState fun _ _ => rfl) fun _ => blind_bind (blind_writeSc _) fun _ => blind_pure _

theorem blind_haltPhase : BlindToStale haltPhase := by
  have hend : BlindToStale (writeStatus .halted >>= fun _ => (pure .increment : Action Advance)) :=
    blind_bind (blind_writeStatus _) fun _ => blind_pure _
  refine blind_bind (blind_readState fun _ _ => rfl) fun c => ?_
  cases c
  · exact hend
  · exact blind_bind blind_incrementPc fun _ => hend

/-- No execute phase reads a stale byte. -/
theorem blind_phaseOf (i : Instr) : BlindToStale (phaseOf i) := by
  cases i with
  | os1 | os2 | os4 => exact blind_selectSize _
  | psa | psb | psc | psd => exact blind_selectPrimary _
  | ssa | ssb | ssc | ssd => exact blind_selectSecondary _
  | pop => exact blind_popPhase
  | push => exact blind_pushPhase
  | dup => exact blind_dupPhase
  | set => exact blind_setPhase
  | jmp => exact blind_takeJump
  | jl | je => exact blind_compareJump _
  | halt => exact blind_haltPhase
  | nop b => exact blind_pure _
  | lit b => exact blind_litPhase b

theorem blind_finish (adv : Advance) : BlindToStale (finish adv) := by
  cases adv with
  | stay => exact blind_pure _
  | increment =>
    refine blind_bind (blind_readState fun _ _ => rfl) fun st => ?_
    split
    · exact blind_incrementPc
    · exact blind_pure _

/-! ### The step -/

theorem takeFault_sameButStale (k : FaultKind) {s t : State} (h : s.SameButStale t) :
    (takeFault k s).SameButStale (takeFault k t) := by
  obtain ⟨l, rfl, hl⟩ := h.exists_bank
  exact State.sameButStale_of_bank (s := takeFault k s) hl

theorem settle_sameButStale {a : Action Advance} (ha : BlindToStale a) {s t s' : State} (h : s.SameButStale t)
    (hs : settle a s = .next s') : ∃ t', settle a t = .next t' ∧ s'.SameButStale t' := by
  have hboth := blind_bind ha blind_finish s t h
  unfold settle at hs ⊢
  generalize (a >>= finish) s = x at hs hboth
  generalize (a >>= finish) t = y at hboth ⊢
  cases hboth with
  | ok _ h' => cases hs; exact ⟨_, rfl, h'⟩
  | error k h' => cases hs; exact ⟨_, rfl, takeFault_sameButStale k h'⟩

/-- Settles O52: the two states fetch the same byte, and the instruction reads no stale one. -/
theorem staleBytesAreNeverRead : Obligations.StaleBytesAreNeverRead := by
  intro s t s' h hs
  obtain ⟨hr, hcase⟩ := step_cases hs
  obtain ⟨k, rfl, -⟩ := h.exists_bank
  rcases hcase with ⟨hp, rfl⟩ | ⟨hp, he⟩
  · exact ⟨_, step_eq_takeFault (s := { s with stk := k }) hr hp, takeFault_sameButStale _ h⟩
  · rw [step_eq_exec (s := { s with stk := k }) hr hp, exec_eq_settle]
    rw [exec_eq_settle] at he
    exact settle_sameButStale (blind_phaseOf _) h he

end Sys2Proof.Machine
end

section
/-! The numbers JL reads (43_jumps.md R162), as values of lists of bytes with the most significant byte first. -/

namespace Sys2Proof.Machine

theorem operandValue_append_singleton (p : List Byte) (b : Byte) :
    operandValue (p ++ [b]) = operandValue p * 256 + b.toNat := by
  simp [operandValue]

theorem operandValue_cons (b : Byte) (p : List Byte) :
    operandValue (b :: p) = b.toNat * 256 ^ p.length + operandValue p := by
  induction p using List.reverseRecOn with
  | nil => simp [operandValue]
  | append_singleton p c ih =>
    rw [← List.cons_append, operandValue_append_singleton, ih, operandValue_append_singleton, List.length_append,
      List.length_singleton, pow_succ]
    ring

theorem operandValue_lt (p : List Byte) : operandValue p < 256 ^ p.length := by
  induction p with
  | nil => simp [operandValue]
  | cons b p ih =>
    calc operandValue (b :: p) = b.toNat * 256 ^ p.length + operandValue p := operandValue_cons b p
      _ < (b.toNat + 1) * 256 ^ p.length := by rw [Nat.succ_mul]; exact Nat.add_lt_add_left ih _
      _ ≤ 256 * 256 ^ p.length := Nat.mul_le_mul_right _ b.isLt
      _ = 256 ^ (b :: p).length := by rw [List.length_cons, Nat.pow_succ, Nat.mul_comm]

/-- The first byte decides when it differs. -/
theorem operandValue_cons_lt_of_lt {a b : Byte} {p q : List Byte} (hlen : p.length = q.length) (h : a.toNat < b.toNat) :
    operandValue (a :: p) < operandValue (b :: q) := by
  rw [operandValue_cons, operandValue_cons, ← hlen]
  calc a.toNat * 256 ^ p.length + operandValue p < (a.toNat + 1) * 256 ^ p.length := by
        rw [Nat.succ_mul]; exact Nat.add_lt_add_left (operandValue_lt p) _
    _ ≤ b.toNat * 256 ^ p.length := Nat.mul_le_mul_right _ h
    _ ≤ b.toNat * 256 ^ p.length + operandValue q := Nat.le_add_right _ _

/-- Numbers of one length compare by the first byte, and by the rest when it agrees. -/
theorem operandValue_cons_lt_iff {a b : Byte} {p q : List Byte} (hlen : p.length = q.length) :
    operandValue (a :: p) < operandValue (b :: q) ↔ a.toNat < b.toNat ∨ a = b ∧ operandValue p < operandValue q := by
  rcases Nat.lt_trichotomy a.toNat b.toNat with hlt | heq | hgt
  · simp [operandValue_cons_lt_of_lt hlen hlt, hlt]
  · obtain rfl := BitVec.eq_of_toNat_eq heq
    simp [operandValue_cons, hlen]
  · have := operandValue_cons_lt_of_lt hlen.symm hgt
    have hne : a ≠ b := by rintro rfl; exact Nat.lt_irrefl _ hgt
    simp only [hne, false_and, or_false]
    omega

/-- Byte sequences of one length with one number are one sequence. -/
theorem operandValue_inj {p q : List Byte} (hlen : p.length = q.length) (h : operandValue p = operandValue q) : p = q := by
  induction p generalizing q with
  | nil => exact (List.length_eq_zero_iff.1 hlen.symm).symm
  | cons a p ih =>
    obtain _ | ⟨b, q⟩ := q
    · cases hlen
    have hlen' : p.length = q.length := Nat.succ.inj hlen
    rcases Nat.lt_trichotomy a.toNat b.toNat with hlt | heq | hgt
    · exact absurd h (operandValue_cons_lt_of_lt hlen' hlt).ne
    · obtain rfl := BitVec.eq_of_toNat_eq heq
      rw [operandValue_cons, operandValue_cons, hlen'] at h
      rw [ih hlen' (Nat.add_left_cancel h)]
    · exact absurd h (operandValue_cons_lt_of_lt hlen'.symm hgt).ne'

/-- Settles O34: the number determines the bytes. -/
theorem equalBytesAreEqualNumbers : Obligations.EqualBytesAreEqualNumbers := by
  intro p q hlen
  rw [isEqual, beq_iff_eq]
  exact ⟨congrArg operandValue, operandValue_inj hlen⟩

/-- `p` is smaller than `q` at the first place where they differ. -/
def FirstDifferenceLess (p q : List Byte) : Prop :=
  ∃ k, k < p.length ∧ (∀ j, j < k → p.getD j 0#8 = q.getD j 0#8) ∧ (p.getD k 0#8).toNat < (q.getD k 0#8).toNat

theorem firstDifferenceLess_cons_iff {a b : Byte} {p q : List Byte} :
    FirstDifferenceLess (a :: p) (b :: q) ↔ a.toNat < b.toNat ∨ a = b ∧ FirstDifferenceLess p q := by
  constructor
  · rintro ⟨k, hk, hbefore, hless⟩
    cases k with
    | zero => exact .inl hless
    | succ k =>
      exact .inr ⟨hbefore 0 (Nat.succ_pos k), k, Nat.lt_of_succ_lt_succ hk,
        fun j hj => hbefore (j + 1) (Nat.succ_lt_succ hj), hless⟩
  · rintro (hless | ⟨rfl, k, hk, hbefore, hless⟩)
    · exact ⟨0, Nat.succ_pos _, fun _ hj => absurd hj (Nat.not_lt_zero _), hless⟩
    · refine ⟨k + 1, Nat.succ_lt_succ hk, fun j hj => ?_, hless⟩
      cases j with
      | zero => rfl
      | succ j => exact hbefore j (Nat.lt_of_succ_lt_succ hj)

theorem operandValue_lt_iff {p q : List Byte} (hlen : p.length = q.length) :
    operandValue p < operandValue q ↔ FirstDifferenceLess p q := by
  induction p generalizing q with
  | nil =>
    obtain rfl := List.length_eq_zero_iff.1 hlen.symm
    simp [FirstDifferenceLess]
  | cons a p ih =>
    obtain _ | ⟨b, q⟩ := q
    · cases hlen
    have hlen' : p.length = q.length := Nat.succ.inj hlen
    rw [operandValue_cons_lt_iff hlen', firstDifferenceLess_cons_iff, ih hlen']

/-- Settles O33: numbers and first differences compare by the first byte and then by the rest alike. -/
theorem lessIsLexicographic : Obligations.LessIsLexicographic :=
  fun _ _ hlen => decide_eq_true_iff.trans (operandValue_lt_iff hlen)

/-! ### The number on a stack, and the number of a word -/

theorem operandValue_map_range (f : Nat → Byte) (n : Nat) :
    operandValue ((List.range n).map f) = ((List.range n).map fun k => (f k).toNat * 256 ^ (n - 1 - k)).sum := by
  induction n generalizing f with
  | zero => rfl
  | succ n ih =>
    rw [List.range_succ_eq_map, List.map_cons, operandValue_cons, List.map_map, ih, List.map_cons, List.sum_cons,
      List.map_map]
    have hrest : ((fun k => (f k).toNat * 256 ^ (n + 1 - 1 - k)) ∘ Nat.succ) =
        fun k => ((f ∘ Nat.succ) k).toNat * 256 ^ (n - 1 - k) := by
      funext k
      rw [Function.comp_apply, Function.comp_apply, show n + 1 - 1 - k.succ = n - 1 - k by omega]
    rw [hrest]
    simp

/-- The number JL reads in the bytes from depth `d` down (R162). -/
theorem ByteStack.operandValue_topBytes (st : ByteStack) (d n : Nat) :
    operandValue ((List.range n).map fun k => st.topByte (d + k)) = st.numberAt d n :=
  operandValue_map_range _ n

/-- The low `n` bytes of a word, the least significant last, as a number. -/
theorem operandValue_lowBytes (v : Word) (n : Nat) :
    operandValue ((List.range n).map fun k => v.extractLsb' (8 * k) 8).reverse = v.toNat % 256 ^ n := by
  induction n with
  | zero => simp [operandValue, Nat.mod_one]
  | succ n ih =>
    have hbyte : (v.extractLsb' (8 * n) 8).toNat = v.toNat / 256 ^ n % 256 := by
      rw [BitVec.extractLsb'_toNat, Nat.shiftRight_eq_div_pow, Nat.pow_mul]
    rw [List.range_succ, List.map_append, List.reverse_append, List.map_singleton, List.reverse_singleton,
      List.singleton_append, operandValue_cons, ih, List.length_reverse, List.length_map, List.length_range, hbyte,
      Nat.mod_pow_succ]
    ring

end Sys2Proof.Machine
end

section
/-! What pushed bytes look like from the top (20_memory.md R55, R56). -/

namespace Sys2Proof.Machine

/-- The pops that follow pushes give the bytes back, the last one first (R55). -/
theorem ByteStack.PushedOnto.map_topByte {x y : ByteStack} {bs : List Byte} (h : y.PushedOnto x bs) :
    (List.range bs.length).map y.topByte = bs.reverse := by
  refine List.ext_getElem (by simp) fun k hk _ => ?_
  have hlt : k < bs.length := by simpa using hk
  rw [List.getElem_map, List.getElem_range, List.getElem_reverse, h.topByte hlt, List.getD_eq_getElem]

/-- Taking the pushed bytes off again leaves the old valid bytes. -/
theorem ByteStack.PushedOnto.drop_sameValid {x y : ByteStack} {bs : List Byte} (h : y.PushedOnto x bs) :
    (y.drop bs.length).SameValid x := by
  obtain ⟨hsize, -, hold⟩ := h
  have hdrop : (y.drop bs.length).size.val = x.size.val := by rw [ByteStack.drop_size, hsize, Nat.add_sub_cancel]
  exact ⟨Fin.ext hdrop, fun k hk => hold k (.inl (hdrop ▸ hk))⟩

/-- What is pushed onto a stack is pushed onto any other of the same size and bytes. -/
theorem ByteStack.PushedOnto.of_sameBytes {x x' y : ByteStack} {bs : List Byte} (h : y.PushedOnto x' bs)
    (hsize : x'.size = x.size) (hread : ∀ a, Memory.read x'.data a = Memory.read x.data a) : y.PushedOnto x bs := by
  obtain ⟨hnew, hbytes, hold⟩ := h
  rw [hsize] at hnew hbytes hold
  exact ⟨hnew, hbytes, fun a ha => (hold a ha).trans (hread a)⟩

/-- The top bytes deepest first are the popped bytes in the reverse order. -/
theorem ByteStack.operandBytes_eq_reverse (st : ByteStack) (n : Nat) :
    st.operandBytes n = ((List.range n).map st.topByte).reverse := by
  refine List.ext_getElem (by simp [ByteStack.operandBytes]) fun k _ _ => ?_
  simp [ByteStack.operandBytes]

/-! ### The primitives -/

/-- Settles O26: both branches of `Pop`. -/
theorem popPrimitive : Obligations.PopPrimitive := by
  intro s i
  refine ⟨fun hsome => ⟨(s.stk.get i).drop 1, rfl, ?_, popByte_ok hsome⟩, popByte_empty⟩
  rw [ByteStack.drop_size]
  omega

/-- Settles O27: the put of an empty stack, read back at its index and at the others. -/
theorem resetPrimitive : Obligations.ResetPrimitive := by
  intro s i
  refine ⟨_, resetStack_apply i s, ?_, fun k => ?_, fun j hj => s.stk.get_put_of_ne hj _, rfl⟩
  · rw [StackBank.get_put_self, ByteStack.empty_size]
  · rw [StackBank.get_put_self, ByteStack.read_empty]

/-- Settles O28: the pushes lay the bytes down, and the pops take as many from the top. -/
theorem popsReturnPushesReversed : Obligations.PopsReturnPushesReversed := by
  intro s i bs hroom
  obtain ⟨st, hpush, hst, -⟩ := pushAll_ok hroom
  have hpop := popN_ok (i := i) (n := bs.length) (s := { s with stk := s.stk.put i st })
    (by rw [StackBank.get_put_self, hst.1]; omega)
  simp only [StackBank.get_put_self, StackBank.put_put, hst.map_topByte] at hpop
  refine ⟨_, _, hpush, hpop, ?_, fun j hj => s.stk.get_put_of_ne hj _, rfl⟩
  rw [StackBank.get_put_self]
  exact hst.drop_sameValid

/-- Settles O29: a peek pushes back what it popped, or its pops underflow. -/
theorem peekLeavesTheStack : Obligations.PeekLeavesTheStack :=
  fun _ _ _ hwf => ⟨fun hn => peek_ok hn hwf, fun hn => by rw [peek_underflow hn, ByteStack.drop_all hn.le]⟩

end Sys2Proof.Machine
end

section
/-! The checks that begin an execute phase, and POP, PUSH, DUP, SET and LIT on every path (42_stack_transfer.md R144 to
R148; 60_exceptions.md R182 to R188). -/

namespace Sys2Proof.Machine

/-! ### The end of a step, from the execute phase -/

/-- A fault of the execute phase is taken (R186). -/
theorem exec_faults_of_phase {i : Instr} {s t : State} {k : FaultKind} (h : phaseOf i s = .error k t) :
    exec i s = .next (takeFault k t) := by
  rw [exec_eq_settle]
  exact settle_error h

/-- An instruction that begins with the size check faults on an illegal size, with nothing written (R183). -/
theorem exec_illegalSize {i : Instr} {rest : OperandSize → Action Advance} {s : State}
    (hi : phaseOf i = operandSize >>= rest) (h : s.SizeIllegal) : exec i s = .next (takeFault .invalidOperandSize s) :=
  exec_faults_of_phase (by rw [hi, bind_error (operandSize_error (legalSize_none h))])

/-- A legal size in `os` is that of an operand. -/
theorem State.SizeIs.exists_operandSize {s : State} {n : Nat} (h : s.SizeIs n) :
    ∃ z, legalSize s.os = some z ∧ byteCount z = n :=
  legalSize_eq h.1 h.2

theorem State.SizeIs.pos {s : State} {n : Nat} (h : s.SizeIs n) : 0 < n := by
  obtain ⟨hn, -⟩ := h
  omega

/-- An instruction that begins with the size check and the check of `ps` faults on an illegal `ps` next (R182, D11). -/
theorem exec_illegalPrimary {i : Instr} {rest : OperandSize → StackIndex → Action Advance} {s : State} {n : Nat}
    (hi : phaseOf i = operandSize >>= fun z => primary >>= rest z) (hn : s.SizeIs n) (h : 4 ≤ s.ps) :
    exec i s = .next (takeFault .invalidStackSelector s) := by
  obtain ⟨z, hz, -⟩ := hn.exists_operandSize
  exact exec_faults_of_phase (by rw [hi, bind_ok (operandSize_ok hz), bind_error (primary_error h)])

/-- Past both checks, the rest of the phase runs with the size and the stack they give. -/
theorem phase_eq_of_checks {i : Instr} {rest : OperandSize → StackIndex → Action Advance} {s : State} {z : OperandSize}
    {j : StackIndex} (hi : phaseOf i = operandSize >>= fun z => primary >>= rest z) (hz : legalSize s.os = some z)
    (hj : s.PrimaryIs j) : phaseOf i s = rest z j s := by
  rw [hi, bind_ok (operandSize_ok hz), bind_ok (primary_ok hj)]

/-! ### POP -/

/-- The byte of significance `k` among popped bytes, as it stood on the stack (R142). -/
theorem significanceOrder_getD (f : PopFirstPopped) (st : ByteStack) {n k : Nat} (hk : k < n) :
    (significanceOrder f ((List.range n).map st.topByte)).getD k 0#8 =
      st.topByte (if f = .leastSignificant then k else n - 1 - k) := by
  cases f <;> simp [significanceOrder, List.getD_eq_getElem?_getD, hk, Nat.sub_sub]

/-- The word made of bytes in order of significance; at four bytes `q 3` fills two lanes and `q 2` none (R142, U1). -/
def laneWord (n : Nat) (q : Nat → Word) : Word :=
  if n = 1 then q 0
  else if n = 2 then q 0 ||| q 1 <<< 8
  else q 0 ||| q 1 <<< 8 ||| q 3 <<< 16 ||| q 3 <<< 24

theorem laneWord_one (q : Nat → Word) : laneWord 1 q = q 0 := rfl

theorem laneWord_two (q : Nat → Word) : laneWord 2 q = q 0 ||| q 1 <<< 8 := rfl

theorem laneWord_four (q : Nat → Word) : laneWord 4 q = q 0 ||| q 1 <<< 8 ||| q 3 <<< 16 ||| q 3 <<< 24 := rfl

/-- Only the first `n` bytes matter. -/
theorem laneWord_congr {n : Nat} {p q : Nat → Word} (hn : n = 1 ∨ n = 2 ∨ n = 4) (h : ∀ k, k < n → p k = q k) :
    laneWord n p = laneWord n q := by
  rcases hn with rfl | rfl | rfl
  · exact h 0 (by decide)
  · rw [laneWord_two, laneWord_two, h 0 (by decide), h 1 (by decide)]
  · rw [laneWord_four, laneWord_four, h 0 (by decide), h 1 (by decide), h 3 (by decide)]

theorem byteCount_legal (z : OperandSize) : byteCount z = 1 ∨ byteCount z = 2 ∨ byteCount z = 4 := by
  cases z <;> decide

theorem assembleOrdered_eq_laneWord (z : OperandSize) (q : List Byte) :
    assembleOrdered z q = laneWord (byteCount z) (lane q) := by
  cases z <;> rfl

/-- The byte of significance `k` of an operand on the stack, under either value of `POP_FIRST_POPPED` (R142, D7). -/
def significantByte (c : Config) (n : Nat) (st : ByteStack) (k : Nat) : Byte :=
  st.topByte (if c.popFirstPopped = .leastSignificant then k else n - 1 - k)

theorem popResult_of_zero {c : Config} (h : c.popMerge = .zero) (n : Nat) (st : ByteStack) (old : Word) :
    popResult c n st old = laneWord n fun k => (significantByte c n st k).setWidth 32 :=
  if_pos h

theorem popResult_of_keep {c : Config} (h : c.popMerge = .keep) (n : Nat) (st : ByteStack) (old : Word) :
    popResult c n st old =
      (old >>> (8 * n)) <<< (8 * n) ||| laneWord n fun k => (significantByte c n st k).setWidth 32 :=
  if_neg (h ▸ PopMerge.noConfusion)

/-- What POP computes from the popped bytes is `popResult` of the stack (R142, R144). -/
theorem mergeTmp_assemble (c : Config) (z : OperandSize) (st : ByteStack) (old : Word) :
    mergeTmp c.popMerge z old (assemble c.popFirstPopped z ((List.range (byteCount z)).map st.topByte)) =
      popResult c (byteCount z) st old := by
  have hword : assemble c.popFirstPopped z ((List.range (byteCount z)).map st.topByte) =
      laneWord (byteCount z) fun k => (significantByte c (byteCount z) st k).setWidth 32 := by
    rw [assemble, assembleOrdered_eq_laneWord]
    exact laneWord_congr (byteCount_legal z) fun k hk =>
      congrArg (BitVec.setWidth 32) (significanceOrder_getD _ st hk)
  rw [hword]
  cases hm : c.popMerge with
  | zero => exact (popResult_of_zero hm _ st old).symm
  | keep => exact (popResult_of_keep hm _ st old).symm

theorem execPop_underflow {s : State} {n : Nat} {i : StackIndex} (hn : s.SizeIs n) (hi : s.PrimaryIs i)
    (h : (s.stk.get i).size.val < n) :
    exec .pop s = .next (takeFault .stackUnderflow { s with stk := s.stk.put i ⟨(s.stk.get i).data, 0⟩ }) := by
  obtain ⟨z, hz, rfl⟩ := hn.exists_operandSize
  refine exec_faults_of_phase ?_
  rw [phase_eq_of_checks rfl hz hi, bind_error (popN_underflow h), ByteStack.drop_all h.le]

/-- The effect of POP on a stack that holds enough (R144). -/
theorem execPop_ends {s : State} {n : Nat} {i : StackIndex} (hr : s.status = .running) (hn : s.SizeIs n)
    (hi : s.PrimaryIs i) (h : n ≤ (s.stk.get i).size.val) :
    EndsAfter (exec .pop s)
      { s with stk := s.stk.put i ((s.stk.get i).drop n), tmp := popResult s.cfg n (s.stk.get i) s.tmp } := by
  obtain ⟨z, hz, rfl⟩ := hn.exists_operandSize
  refine exec_ends_of_phase ?_ hr
  rw [phase_eq_of_checks rfl hz hi, bind_ok (popN_ok h), ← mergeTmp_assemble]
  rfl

/-- Settles O15: the two checks, the underflow, and the effect. -/
theorem popMovesOperandToTmp : Obligations.PopMovesOperandToTmp :=
  fun _ => ⟨exec_illegalSize rfl, fun _ hn => ⟨exec_illegalPrimary rfl hn, fun _ hi =>
    ⟨execPop_underflow hn hi, fun hr => execPop_ends hr hn hi⟩⟩⟩

/-! ### PUSH -/

/-- The low `n` bytes of a word, the least significant first (R143). -/
abbrev lowBytes (n : Nat) (v : Word) : List Byte := (List.range n).map fun k => v.extractLsb' (8 * k) 8

theorem lowBytes_length (n : Nat) (v : Word) : (lowBytes n v).length = n := by
  rw [List.length_map, List.length_range]

theorem execPush_overflow {s : State} {n : Nat} {i : StackIndex} (hn : s.SizeIs n) (hi : s.PrimaryIs i)
    (h : 1024 < (s.stk.get i).size.val + n) :
    ∃ st : ByteStack, st.PushedOnto (s.stk.get i) ((lowBytes n s.tmp).take (1024 - (s.stk.get i).size.val)) ∧
      exec .push s = .next (takeFault .stackOverflow { s with stk := s.stk.put i st }) := by
  obtain ⟨z, hz, rfl⟩ := hn.exists_operandSize
  obtain ⟨st, hpush, hst, -⟩ := pushAll_overflow (i := i) (bs := lowBytes (byteCount z) s.tmp) (s := s)
    (by rwa [lowBytes_length])
  refine ⟨st, hst, exec_faults_of_phase ?_⟩
  rw [phase_eq_of_checks rfl hz hi, readState_bind]
  exact bind_error hpush

/-- The effect of PUSH on a stack with room (R145). -/
theorem execPush_ends {s : State} {n : Nat} {i : StackIndex} (hr : s.status = .running) (hn : s.SizeIs n)
    (hi : s.PrimaryIs i) (h : (s.stk.get i).size.val + n ≤ 1024) :
    ∃ st : ByteStack, st.PushedOnto (s.stk.get i) (lowBytes n s.tmp) ∧
      EndsAfter (exec .push s) { s with stk := s.stk.put i st } := by
  obtain ⟨z, hz, rfl⟩ := hn.exists_operandSize
  obtain ⟨st, hpush, hst, -⟩ := pushAll_ok (i := i) (bs := lowBytes (byteCount z) s.tmp) (s := s)
    (by rwa [lowBytes_length])
  refine ⟨st, hst, exec_ends_of_phase ?_ hr⟩
  rw [phase_eq_of_checks rfl hz hi, readState_bind]
  exact bind_ok hpush

/-- Settles O16: the two checks, the overflow, and the effect. -/
theorem pushMovesTmpToStack : Obligations.PushMovesTmpToStack :=
  fun _ => ⟨exec_illegalSize rfl, fun _ hn => ⟨exec_illegalPrimary rfl hn, fun _ hi =>
    ⟨execPush_overflow hn hi, fun hr => execPush_ends hr hn hi⟩⟩⟩

/-! ### DUP -/

theorem execDup_underflow {s : State} {n : Nat} {i : StackIndex} (hn : s.SizeIs n) (hi : s.PrimaryIs i)
    (h : (s.stk.get i).size.val < n) :
    exec .dup s = .next (takeFault .stackUnderflow { s with stk := s.stk.put i ⟨(s.stk.get i).data, 0⟩ }) := by
  obtain ⟨z, hz, rfl⟩ := hn.exists_operandSize
  refine exec_faults_of_phase ?_
  rw [phase_eq_of_checks rfl hz hi, bind_error (popN_underflow h), ByteStack.drop_all h.le]

/-- DUP pops the operand and pushes it back, which leaves the bytes of the stack as they were, and then pushes the copy
(R146). -/
theorem dupPhase_eq_pushCopy {s : State} {z : OperandSize} {i : StackIndex} (hz : legalSize s.os = some z)
    (hi : s.PrimaryIs i) (h : byteCount z ≤ (s.stk.get i).size.val) :
    ∃ y : ByteStack, y.size = (s.stk.get i).size ∧ (∀ a, Memory.read y.data a = Memory.read (s.stk.get i).data a) ∧
      phaseOf .dup s =
        (pushAll i ((s.stk.get i).operandBytes (byteCount z)) >>= fun _ => pure Advance.increment)
          { s with stk := s.stk.put i y } := by
  obtain ⟨y, hy, hsize, hread, -⟩ := pushBack_reads (i := i) (n := byteCount z) (st := s.stk.get i)
    (s := { s with stk := s.stk.put i ((s.stk.get i).drop (byteCount z)) }) h (StackBank.get_put_self _ _ _)
  rw [StackBank.put_put] at hy
  refine ⟨y, hsize, hread, ?_⟩
  rw [phase_eq_of_checks rfl hz hi, bind_ok (popN_ok h), bind_ok hy, ByteStack.operandBytes_eq_reverse]
  rfl

theorem ByteStack.operandBytes_length (st : ByteStack) (n : Nat) : (st.operandBytes n).length = n := by
  rw [ByteStack.operandBytes, List.length_map, List.length_range]

theorem execDup_overflow {s : State} {n : Nat} {i : StackIndex} (hn : s.SizeIs n) (hi : s.PrimaryIs i)
    (h : n ≤ (s.stk.get i).size.val) (hfull : 1024 < (s.stk.get i).size.val + n) :
    ∃ st : ByteStack,
      st.PushedOnto (s.stk.get i) (((s.stk.get i).operandBytes n).take (1024 - (s.stk.get i).size.val)) ∧
      exec .dup s = .next (takeFault .stackOverflow { s with stk := s.stk.put i st }) := by
  obtain ⟨z, hz, rfl⟩ := hn.exists_operandSize
  obtain ⟨y, hsize, hread, hphase⟩ := dupPhase_eq_pushCopy hz hi h
  obtain ⟨st, hpush, hst, -⟩ := pushAll_overflow (i := i) (bs := (s.stk.get i).operandBytes (byteCount z))
    (s := { s with stk := s.stk.put i y }) (by rwa [StackBank.get_put_self, ByteStack.operandBytes_length, hsize])
  simp only [StackBank.get_put_self, StackBank.put_put, hsize] at hpush hst
  exact ⟨st, hst.of_sameBytes hsize hread, exec_faults_of_phase (hphase.trans (bind_error hpush))⟩

/-- The effect of DUP on a stack that holds the operand and has room for the copy (R146). -/
theorem execDup_ends {s : State} {n : Nat} {i : StackIndex} (hr : s.status = .running) (hn : s.SizeIs n)
    (hi : s.PrimaryIs i) (h : n ≤ (s.stk.get i).size.val) (hroom : (s.stk.get i).size.val + n ≤ 1024) :
    ∃ st : ByteStack, st.PushedOnto (s.stk.get i) ((s.stk.get i).operandBytes n) ∧
      EndsAfter (exec .dup s) { s with stk := s.stk.put i st } := by
  obtain ⟨z, hz, rfl⟩ := hn.exists_operandSize
  obtain ⟨y, hsize, hread, hphase⟩ := dupPhase_eq_pushCopy hz hi h
  obtain ⟨st, hpush, hst, -⟩ := pushAll_ok (i := i) (bs := (s.stk.get i).operandBytes (byteCount z))
    (s := { s with stk := s.stk.put i y }) (by rwa [StackBank.get_put_self, ByteStack.operandBytes_length, hsize])
  simp only [StackBank.get_put_self, StackBank.put_put] at hpush hst
  exact ⟨st, hst.of_sameBytes hsize hread, exec_ends_of_phase (hphase.trans (bind_ok hpush)) hr⟩

/-- Settles O17: the two checks, the underflow, the overflow of the copy, and the effect. -/
theorem dupRepeatsTheOperand : Obligations.DupRepeatsTheOperand :=
  fun _ => ⟨exec_illegalSize rfl, fun _ hn => ⟨exec_illegalPrimary rfl hn, fun _ hi =>
    ⟨execDup_underflow hn hi, execDup_overflow hn hi, fun hr => execDup_ends hr hn hi⟩⟩⟩

/-! ### SET, LIT and the selects -/

/-- Settles O18: the size check, and the effect. -/
theorem setArmsLiteralCapture : Obligations.SetArmsLiteralCapture :=
  fun _ => ⟨exec_illegalSize rfl, fun _ hn hr => execSet_ends hr hn⟩

/-- Settles O19: the selector check, the overflow, and the effect. -/
theorem literalByteIsPushed : Obligations.LiteralByteIsPushed := by
  intro s b _ _
  refine ⟨fun hps => ?selector, fun i hi => ⟨fun hfull => ?overflow, fun hr hroom => execLit_ends hr hi hroom b⟩⟩
  case selector => exact exec_faults_of_phase (by rw [phaseOf, litPhase, bind_error (primary_error hps)])
  case overflow =>
    exact exec_faults_of_phase (by rw [phaseOf, litPhase, bind_ok (primary_ok hi), bind_error (pushByte_full hfull.ge b)])

/-- Settles O13: each select writes the index that its stack's name has in the configuration. -/
theorem selectsWriteTheNamedStack : Obligations.SelectsWriteTheNamedStack := by
  intro s hr
  simp only [List.forall_mem_cons, List.not_mem_nil, false_imp_iff, implies_true, and_true]
  exact
    ⟨⟨execSelectPrimary_ends (n := .a) hr rfl rfl, execSelectPrimary_ends (n := .b) hr rfl rfl,
      execSelectPrimary_ends (n := .c) hr rfl rfl, execSelectPrimary_ends (n := .d) hr rfl rfl⟩,
    execSelectSecondary_ends (n := .a) hr rfl rfl, execSelectSecondary_ends (n := .b) hr rfl rfl,
    execSelectSecondary_ends (n := .c) hr rfl rfl, execSelectSecondary_ends (n := .d) hr rfl rfl⟩

end Sys2Proof.Machine
end

section
/-! The laws of PUSH and POP together (20_memory.md section 3; 42_stack_transfer.md R149). -/

namespace Sys2Proof.Machine

/-- Settles O32: the bytes popped from a push come back in the reverse order, the most significant first. -/
theorem pushedValueIsTheNumberJlReads : Obligations.PushedValueIsTheNumberJlReads := by
  intro s n i hr hn hi hroom hp
  obtain ⟨st, hst, hends⟩ := execPush_ends hr hn hi hroom
  refine ⟨_, hends.1 hp, ?_⟩
  have hpopped := hst.map_topByte
  rw [lowBytes_length] at hpopped
  rw [StackBank.get_put_self, ← ByteStack.operandValue_topBytes]
  simp only [Nat.zero_add]
  rw [hpopped, operandValue_lowBytes]

/-! ### PUSH then POP -/

theorem setWidth_extractLsb'_eq_wordByte (v : Word) (k : Nat) : (v.extractLsb' (8 * k) 8).setWidth 32 = wordByte v k := by
  refine BitVec.eq_of_toNat_eq ?_
  have hmask : (0xFF#32).toNat = 2 ^ 8 - 1 := rfl
  rw [wordByte, BitVec.toNat_setWidth, BitVec.extractLsb'_toNat, BitVec.toNat_and, BitVec.toNat_ushiftRight, hmask,
    Nat.and_two_pow_sub_one_eq_mod]
  exact Nat.mod_eq_of_lt ((Nat.mod_lt _ (by decide)).trans (by decide))

/-- The byte at depth `k` after a push of the low `n` bytes of a word is its byte `n - 1 - k`. -/
theorem ByteStack.PushedOnto.topByte_lowBytes {x y : ByteStack} {n k : Nat} {v : Word}
    (h : y.PushedOnto x (lowBytes n v)) (hk : k < n) : (y.topByte k).setWidth 32 = wordByte v (n - 1 - k) := by
  rw [h.topByte (by rwa [lowBytes_length]), lowBytes_length, ← setWidth_extractLsb'_eq_wordByte,
    List.getD_eq_getElem _ _ (by rw [lowBytes_length]; omega), List.getElem_map, List.getElem_range]

/-- PUSH and then POP, both with their increments, with `POP_MERGE` = zero: depth `k` holds byte `n - 1 - k` of `tmp`. -/
theorem exec_push_pop {s : State} {n : Nat} {i : StackIndex} (hr : s.status = .running) (hn : s.SizeIs n)
    (hi : s.PrimaryIs i) (hroom : (s.stk.get i).size.val + n ≤ 1024) (hp : s.pc < 1022) (hzero : s.cfg.popMerge = .zero) :
    ∃ t u, exec .push s = .next t ∧ exec .pop t = .next u ∧ (u.stk.get i).SameValid (s.stk.get i) ∧
      u.tmp = laneWord n fun k =>
        wordByte s.tmp (n - 1 - if s.cfg.popFirstPopped = .leastSignificant then k else n - 1 - k) := by
  obtain ⟨st, hst, hpush⟩ := execPush_ends hr hn hi hroom
  have hsize := hst.1
  have hvalid := hst.drop_sameValid
  rw [lowBytes_length] at hsize hvalid
  have hpop := execPop_ends (s := { s with stk := s.stk.put i st, pc := s.pc + 1 }) hr hn hi
    (by rw [StackBank.get_put_self]; omega)
  refine ⟨_, _, hpush.1 (by simp only; omega), hpop.1 (by simp only; omega), ?_, ?_⟩
  · simpa only [StackBank.get_put_self] using hvalid
  · simp only [StackBank.get_put_self, popResult_of_zero hzero]
    refine laneWord_congr hn.1 fun k hk => hst.topByte_lowBytes ?_
    split <;> omega

theorem or_four_comm (a b c d : Word) : a ||| b ||| c ||| d = d ||| c ||| b ||| a := by
  ac_rfl

/-- Settles O35: at each size and under either order, the lanes of the popped word are bytes of the pushed one. -/
theorem pushThenPop : Obligations.PushThenPop := by
  intro s n i hr hn hi hroom hp hzero
  obtain ⟨t, u, hpush, hpop, hvalid, htmp⟩ := exec_push_pop hr hn hi hroom hp hzero
  refine ⟨t, u, hpush, hpop, hvalid, ?one, fun hls => ?least, fun hms => ?most⟩
  case one =>
    rintro rfl
    simpa [laneWord_one] using htmp
  case least =>
    simp only [hls, if_true] at htmp
    refine ⟨?_, ?_⟩ <;> rintro rfl
    · exact htmp.trans (BitVec.or_comm _ _)
    · exact htmp.trans (or_four_comm _ _ _ _)
  case most =>
    simp only [hms, reduceCtorEq, if_false] at htmp
    refine ⟨?_, ?_⟩ <;> rintro rfl
    · exact htmp.trans (BitVec.or_comm _ _)
    · exact htmp.trans (or_four_comm _ _ _ _)

/-! ### POP then PUSH -/

theorem extractLsb'_lane_same (b : Byte) {a : Nat} (h : a + 8 ≤ 32) : (b.setWidth 32 <<< a).extractLsb' a 8 = b := by
  refine BitVec.eq_of_getLsbD_eq fun j hj => ?_
  simp [hj, show a + j < 32 by omega]

/-- A byte shifted to one lane leaves the others zero. -/
theorem extractLsb'_lane_other (b : Byte) {a p : Nat} (h : p + 8 ≤ a ∨ a + 8 ≤ p) :
    (b.setWidth 32 <<< a).extractLsb' p 8 = 0#8 := by
  refine BitVec.eq_of_getLsbD_eq fun j hj => ?_
  rw [BitVec.getLsbD_extractLsb', BitVec.getLsbD_shiftLeft, BitVec.getLsbD_setWidth]
  rcases h with h | h
  · simp [show p + j < a by omega]
  · simp [BitVec.getLsbD_of_ge b (p + j - a) (by omega)]

/-- Bits shifted above a byte do not reach it. -/
theorem extractLsb'_shiftLeft_of_le (v : Word) {a p : Nat} (h : p + 8 ≤ a) : (v <<< a).extractLsb' p 8 = 0#8 := by
  refine BitVec.eq_of_getLsbD_eq fun j hj => ?_
  simp [show p + j < a by omega]

/-- The depths whose bytes POP and then PUSH lay down, the deepest first: at four bytes one is lost and one doubled (U1). -/
abbrev keptDepths (n : Nat) : List Nat := if n = 4 then [0, 1, 3, 3] else List.range n

theorem lowBytes_laneWord {n : Nat} (hn : n = 1 ∨ n = 2 ∨ n = 4) (b : Nat → Byte) :
    lowBytes n (laneWord n fun k => (b k).setWidth 32) = (keptDepths n).map b := by
  have same0 : ∀ x : Byte, (x.setWidth 32).extractLsb' 0 8 = x := fun x => by
    simpa using extractLsb'_lane_same x (a := 0) (by decide)
  have other0 : ∀ (x : Byte) {p : Nat}, 8 ≤ p → (x.setWidth 32).extractLsb' p 8 = 0#8 := fun x p hp => by
    simpa using extractLsb'_lane_other x (a := 0) (.inr (by omega : 0 + 8 ≤ p))
  rcases hn with rfl | rfl | rfl
  · simp [lowBytes, keptDepths, laneWord_one, same0]
  · simp [lowBytes, keptDepths, laneWord_two, List.range_succ, BitVec.extractLsb'_or, same0, other0, extractLsb'_lane_same,
      extractLsb'_lane_other]
  · simp [lowBytes, keptDepths, laneWord_four, List.range_succ, BitVec.extractLsb'_or, same0, other0, extractLsb'_lane_same,
      extractLsb'_lane_other]

/-- The bits of `tmp` that POP keeps are above the operand. -/
theorem lowBytes_popResult (c : Config) (n : Nat) (st : ByteStack) (old : Word) :
    lowBytes n (popResult c n st old) = lowBytes n (laneWord n fun k => (significantByte c n st k).setWidth 32) := by
  cases hm : c.popMerge with
  | zero => rw [popResult_of_zero hm]
  | keep =>
    rw [popResult_of_keep hm]
    refine List.map_congr_left fun k hk => ?_
    have hkn : k < n := List.mem_range.1 hk
    rw [BitVec.extractLsb'_or, extractLsb'_shiftLeft_of_le _ (by omega), BitVec.zero_or]

/-- Settles O36: PUSH lays down the lanes that POP assembled, the first popped byte deepest. -/
theorem popThenPush : Obligations.PopThenPush := by
  intro s n i hr hn hi hsize hp hls
  have hpop := execPop_ends hr hn hi hsize
  obtain ⟨st, hst, hpush⟩ := execPush_ends (n := n) (i := i)
    (s := { s with
      stk := s.stk.put i ((s.stk.get i).drop n), tmp := popResult s.cfg n (s.stk.get i) s.tmp, pc := s.pc + 1 })
    hr hn hi (by
      have := (s.stk.get i).size.isLt
      rw [StackBank.get_put_self, ByteStack.drop_size]
      omega)
  refine ⟨_, _, hpop.1 (by simp only; omega), hpush.1 (by simp only; omega), ?_⟩
  simp only [StackBank.get_put_self] at hst ⊢
  rw [lowBytes_popResult, lowBytes_laneWord hn.1] at hst
  have hfirst : significantByte s.cfg n (s.stk.get i) = (s.stk.get i).topByte := funext fun k => by
    rw [significantByte, hls, if_pos rfl]
  rwa [hfirst] at hst

end Sys2Proof.Machine
end

section
/-! JMP, JL and JE (43_jumps.md R160 to R165). -/

namespace Sys2Proof.Machine

/-- Settles O20: JMP is a taken jump and nothing else. -/
theorem jmpGoesToTar : Obligations.JmpGoesToTar := by
  intro s hr
  rw [exec_eq_settle]
  exact takeJump_ends rfl hr

/-! ### The two peeks -/

/-- The top `n` bytes from depth `d` down, in pop order. -/
abbrev topBytes (st : ByteStack) (d n : Nat) : List Byte := (List.range n).map fun k => st.topByte (d + k)

theorem topBytes_zero (st : ByteStack) (n : Nat) : topBytes st 0 n = (List.range n).map st.topByte := by
  simp only [topBytes, Nat.zero_add]

theorem topBytes_drop (st : ByteStack) (m n : Nat) : (List.range n).map (st.drop m).topByte = topBytes st m n :=
  List.map_congr_left fun k _ => st.topByte_drop m k

theorem peekBoth_ok {i j : StackIndex} {n : Nat} {s : State} (hs : s.Canonical) (hi : n ≤ (s.stk.get i).size.val)
    (hj : n ≤ (s.stk.get j).size.val) :
    peekBoth i j n s = .ok (topBytes (s.stk.get i) 0 n, topBytes (s.stk.get j) 0 n) s := by
  obtain ⟨-, hwf⟩ := hs
  rw [peekBoth, bind_ok (peek_ok hi (hwf i)), bind_ok (peek_ok hj (hwf j)), topBytes_zero, topBytes_zero]
  rfl

theorem peekBoth_underflow_primary {i : StackIndex} (j : StackIndex) {n : Nat} {s : State}
    (hi : (s.stk.get i).size.val < n) :
    peekBoth i j n s = .error .stackUnderflow { s with stk := s.stk.put i ⟨(s.stk.get i).data, 0⟩ } := by
  rw [peekBoth, bind_error (peek_underflow hi), ByteStack.drop_all hi.le]

theorem peekBoth_underflow_secondary {i j : StackIndex} {n : Nat} {s : State} (hs : s.Canonical)
    (hi : n ≤ (s.stk.get i).size.val) (hj : (s.stk.get j).size.val < n) :
    peekBoth i j n s = .error .stackUnderflow { s with stk := s.stk.put j ⟨(s.stk.get j).data, 0⟩ } := by
  obtain ⟨-, hwf⟩ := hs
  rw [peekBoth, bind_ok (peek_ok hi (hwf i)), bind_error (peek_underflow hj), ByteStack.drop_all hj.le]

/-- Interleaved peeks of a stack that holds two operands: both go back where they were (R164, D9). -/
theorem peekInterleaved_ok {i : StackIndex} {n : Nat} {s : State} (hs : s.Canonical)
    (h : 2 * n ≤ (s.stk.get i).size.val) :
    peekInterleaved i n s = .ok (topBytes (s.stk.get i) 0 n, topBytes (s.stk.get i) n n) s := by
  have hwf : Memory.wf (s.stk.get i).data := hs.2 i
  have hsecond : popN i n { s with stk := s.stk.put i ((s.stk.get i).drop n) } =
      .ok ((List.range n).map ((s.stk.get i).drop n).topByte)
        { s with stk := s.stk.put i (((s.stk.get i).drop n).drop n) } := by
    rw [popN_ok (by rw [StackBank.get_put_self, ByteStack.drop_size]; omega)]
    simp only [StackBank.get_put_self, StackBank.put_put]
  have hback : pushBack i ((List.range n).map ((s.stk.get i).drop n).topByte)
      { s with stk := s.stk.put i (((s.stk.get i).drop n).drop n) } =
        .ok () { s with stk := s.stk.put i ((s.stk.get i).drop n) } := by
    rw [pushBack_popN (st := (s.stk.get i).drop n) (by rw [ByteStack.drop_size]; omega) hwf (StackBank.get_put_self _ _ _)]
    simp only [StackBank.put_put]
  have hbackTop : pushBack i ((List.range n).map (s.stk.get i).topByte)
      { s with stk := s.stk.put i ((s.stk.get i).drop n) } = .ok () s := by
    rw [pushBack_popN (st := s.stk.get i) (by omega) hwf (StackBank.get_put_self _ _ _)]
    simp only [StackBank.put_put, StackBank.put_get]
  rw [peekInterleaved, bind_ok (popN_ok (by omega)), bind_ok hsecond, bind_ok hback, bind_ok hbackTop, topBytes_drop,
    topBytes_zero]
  rfl

/-- Interleaved peeks of a stack that holds too little for two operands leave it empty (R160, D10). -/
theorem peekInterleaved_underflow {i : StackIndex} {n : Nat} {s : State} (h : (s.stk.get i).size.val < 2 * n) :
    peekInterleaved i n s = .error .stackUnderflow { s with stk := s.stk.put i ⟨(s.stk.get i).data, 0⟩ } := by
  rcases Nat.lt_or_ge (s.stk.get i).size.val n with hfirst | hfirst
  · rw [peekInterleaved, bind_error (popN_underflow hfirst), ByteStack.drop_all hfirst.le]
  · rw [peekInterleaved, bind_ok (popN_ok hfirst),
      bind_error (popN_underflow (by rw [StackBank.get_put_self, ByteStack.drop_size]; omega))]
    simp only [StackBank.get_put_self, StackBank.put_put, ByteStack.drop_drop]
    rw [ByteStack.drop_all (by omega)]

/-- `PEEK_ALIAS` matters for one stack only (R164). -/
theorem peekOperands_eq_peekBoth {i j : StackIndex} {s : State} (h : i ≠ j ∨ s.cfg.peekAlias = .sequential) (n : Nat) :
    peekOperands i j n s = peekBoth i j n s := by
  rw [peekOperands, readState_bind]
  cases ha : s.cfg.peekAlias with
  | sequential => rfl
  | interleaved => simp [h.resolve_right (ha ▸ PeekAlias.noConfusion)]

theorem peekOperands_eq_peekInterleaved {s : State} (h : s.cfg.peekAlias = .interleaved) (i : StackIndex) (n : Nat) :
    peekOperands i i n s = peekInterleaved i n s := by
  rw [peekOperands, readState_bind, h]
  simp only [if_true]

theorem peekOperands_underflow_primary {i : StackIndex} (j : StackIndex) {n : Nat} {s : State}
    (hi : (s.stk.get i).size.val < n) :
    peekOperands i j n s = .error .stackUnderflow { s with stk := s.stk.put i ⟨(s.stk.get i).data, 0⟩ } := by
  by_cases h : i ≠ j ∨ s.cfg.peekAlias = .sequential
  · rw [peekOperands_eq_peekBoth h, peekBoth_underflow_primary j hi]
  · obtain ⟨rfl, ha⟩ : i = j ∧ s.cfg.peekAlias ≠ .sequential := by simpa using h
    have hint : s.cfg.peekAlias = .interleaved := by
      cases hc : s.cfg.peekAlias with
      | sequential => exact absurd hc ha
      | interleaved => rfl
    rw [peekOperands_eq_peekInterleaved hint, peekInterleaved_underflow (by omega)]

/-! ### The jump on a comparison -/

section
variable {c : Instr} {taken : List Byte → List Byte → Bool} {s : State} {n : Nat} {i j : StackIndex}

/-- Past the three checks, the phase peeks the operands and decides (R162, R163). -/
theorem compareJump_eq_of_checks {z : OperandSize} (hz : legalSize s.os = some z) (hi : s.PrimaryIs i)
    (hj : s.SecondaryIs j) :
    compareJump taken s =
      (peekOperands i j (byteCount z) >>= fun pq => if taken pq.1 pq.2 then takeJump else pure .increment) s := by
  rw [compareJump, bind_ok (operandSize_ok hz), bind_ok (primary_ok hi), bind_ok (secondary_ok hj)]

/-- A peek that underflows ends the step with what it left. -/
theorem exec_compareJump_faults {k : FaultKind} {t : State} (hc : phaseOf c = compareJump taken) (hn : s.SizeIs n)
    (hi : s.PrimaryIs i) (hj : s.SecondaryIs j) (h : peekOperands i j n s = .error k t) :
    exec c s = .next (takeFault k t) := by
  obtain ⟨z, hz, rfl⟩ := hn.exists_operandSize
  exact exec_faults_of_phase (by rw [hc, compareJump_eq_of_checks hz hi hj, bind_error h])

/-- With both operands read and the state as it was, the decision alone says where the step ends. -/
theorem exec_compareJump_ends {p q : List Byte} (hc : phaseOf c = compareJump taken) (hr : s.status = .running)
    (hn : s.SizeIs n) (hi : s.PrimaryIs i) (hj : s.SecondaryIs j) (h : peekOperands i j n s = .ok (p, q) s) :
    (taken p q = true → EndsInJump (exec c s) s) ∧ (¬ taken p q = true → EndsAfter (exec c s) s) := by
  obtain ⟨z, hz, rfl⟩ := hn.exists_operandSize
  have hphase : compareJump taken s = (if taken p q then takeJump else pure .increment : Action Advance) s := by
    rw [compareJump_eq_of_checks hz hi hj, bind_ok h]
  rw [exec_eq_settle, hc]
  refine ⟨fun ht => takeJump_ends ?_ hr, fun ht => settle_increment ?_ hr⟩
  · rw [hphase, if_pos ht]
  · rw [hphase, if_neg ht, pure_apply]

theorem exec_illegalSecondary (hc : phaseOf c = compareJump taken) (hn : s.SizeIs n) (hi : s.PrimaryIs i)
    (hss : 4 ≤ s.ss) : exec c s = .next (takeFault .invalidStackSelector s) := by
  obtain ⟨z, hz, -⟩ := hn.exists_operandSize
  exact exec_faults_of_phase (by
    rw [hc, compareJump, bind_ok (operandSize_ok hz), bind_ok (primary_ok hi), bind_error (secondary_error hss)])

end

theorem phaseOf_comparison {c : Instr} (h : c = .jl ∨ c = .je) : ∃ taken, phaseOf c = compareJump taken := by
  rcases h with rfl | rfl
  · exact ⟨_, rfl⟩
  · exact ⟨_, rfl⟩

/-- Settles O21: the three checks and the two peeks, each the first to fail. -/
theorem comparisonFaults : Obligations.ComparisonFaults := by
  intro s c hjump hs
  obtain ⟨taken, hc⟩ := phaseOf_comparison hjump
  refine ⟨exec_illegalSize hc, fun n hn => ⟨exec_illegalPrimary hc hn, fun i hi => ⟨exec_illegalSecondary hc hn hi,
    fun j hj => ⟨fun hsize => ?primary, fun hpri hsec => ?secondary⟩⟩⟩⟩
  case primary => exact exec_compareJump_faults hc hn hi hj (peekOperands_underflow_primary j hsize)
  case secondary =>
    have hne : i ≠ j := by rintro rfl; omega
    exact exec_compareJump_faults hc hn hi hj
      ((peekOperands_eq_peekBoth (.inl hne) n).trans (peekBoth_underflow_secondary hs hpri hsec))

/-! ### What JL and JE decide -/

theorem isLess_topBytes (x y : ByteStack) (d e n : Nat) :
    isLess (topBytes x d n) (topBytes y e n) = true ↔ x.numberAt d n < y.numberAt e n := by
  rw [isLess, decide_eq_true_iff, ByteStack.operandValue_topBytes, ByteStack.operandValue_topBytes]

theorem isEqual_topBytes (x y : ByteStack) (d e n : Nat) :
    isEqual (topBytes x d n) (topBytes y e n) = true ↔ ∀ k, k < n → x.topByte (d + k) = y.topByte (e + k) := by
  simp [isEqual]

/-- JL on operands of which one stands at depth `d`, the other at depth `e` (R162). -/
theorem execJl_ends {s : State} {n d e : Nat} {i j : StackIndex} (hr : s.status = .running) (hn : s.SizeIs n)
    (hi : s.PrimaryIs i) (hj : s.SecondaryIs j)
    (h : peekOperands i j n s = .ok (topBytes (s.stk.get i) d n, topBytes (s.stk.get j) e n) s) :
    ((s.stk.get i).numberAt d n < (s.stk.get j).numberAt e n → EndsInJump (exec .jl s) s) ∧
      (¬ (s.stk.get i).numberAt d n < (s.stk.get j).numberAt e n → EndsAfter (exec .jl s) s) := by
  rw [← isLess_topBytes]
  exact exec_compareJump_ends rfl hr hn hi hj h

/-- JE on operands of which one stands at depth `d`, the other at depth `e` (R163). -/
theorem execJe_ends {s : State} {n d e : Nat} {i j : StackIndex} (hr : s.status = .running) (hn : s.SizeIs n)
    (hi : s.PrimaryIs i) (hj : s.SecondaryIs j)
    (h : peekOperands i j n s = .ok (topBytes (s.stk.get i) d n, topBytes (s.stk.get j) e n) s) :
    ((∀ k, k < n → (s.stk.get i).topByte (d + k) = (s.stk.get j).topByte (e + k)) → EndsInJump (exec .je s) s) ∧
      (¬ (∀ k, k < n → (s.stk.get i).topByte (d + k) = (s.stk.get j).topByte (e + k)) →
        EndsAfter (exec .je s) s) := by
  rw [← isEqual_topBytes]
  exact exec_compareJump_ends rfl hr hn hi hj h

theorem peekOperands_ok {i j : StackIndex} {n : Nat} {s : State} (hs : s.Canonical) (hi : n ≤ (s.stk.get i).size.val)
    (hj : n ≤ (s.stk.get j).size.val) (h : i ≠ j ∨ s.cfg.peekAlias = .sequential) :
    peekOperands i j n s = .ok (topBytes (s.stk.get i) 0 n, topBytes (s.stk.get j) 0 n) s := by
  rw [peekOperands_eq_peekBoth h, peekBoth_ok hs hi hj]

/-- Settles O22: both operands stand at depth 0, and JL compares their numbers. -/
theorem jlComparesNumbers : Obligations.JlComparesNumbers :=
  fun _ _ _ _ hr hs hn hi hj hpri hsec hpeek => execJl_ends hr hn hi hj (peekOperands_ok hs hpri hsec hpeek)

/-- Settles O23: both operands stand at depth 0, and JE compares their bytes. -/
theorem jeComparesBytes : Obligations.JeComparesBytes := by
  intro s n i j hr hs hn hi hj hpri hsec hpeek
  simpa only [Nat.zero_add] using execJe_ends hr hn hi hj (peekOperands_ok hs hpri hsec hpeek)

/-- Settles O24: one stack read twice at depth 0, or at depths 0 and `n`. -/
theorem comparisonOnOneStack : Obligations.ComparisonOnOneStack := by
  intro s n i hr hs hn hi hj
  refine ⟨fun hseq hsize => ?sequential, fun hint hsize => ?interleaved, fun hint hsize c hjump => ?underflow⟩
  case sequential =>
    have hpeek := peekOperands_ok hs hsize hsize (.inr hseq)
    exact ⟨(execJe_ends hr hn hi hj hpeek).1 fun _ _ => rfl, (execJl_ends hr hn hi hj hpeek).2 (Nat.lt_irrefl _)⟩
  case interleaved =>
    have hpeek := (peekOperands_eq_peekInterleaved hint i n).trans (peekInterleaved_ok hs hsize)
    obtain ⟨hless, hnotLess⟩ := execJl_ends hr hn hi hj hpeek
    have hequal := execJe_ends hr hn hi hj hpeek
    simp only [Nat.zero_add] at hequal
    exact ⟨hless, hnotLess, hequal⟩
  case underflow =>
    obtain ⟨taken, hc⟩ := phaseOf_comparison hjump
    exact exec_compareJump_faults hc hn hi hj
      ((peekOperands_eq_peekInterleaved hint i n).trans (peekInterleaved_underflow hsize))

end Sys2Proof.Machine
end

section
/-! Legal fault codes (60_exceptions.md R181, D14). -/

namespace Sys2Proof

/-- The five faults, in the order of R181. -/
def faultKinds : List FaultKind :=
  [.stackOverflow, .stackUnderflow, .invalidStackSelector, .invalidOperandSize, .programCounterOutOfBounds]

theorem mem_faultKinds (k : FaultKind) : k ∈ faultKinds := by
  cases k <;> decide

theorem FaultCodes.all_eq_map (t : FaultCodes) : t.all = faultKinds.map t.code := rfl

/-- Legal fault codes tell the faults apart (D14). -/
theorem FaultCodes.code_injective {t : FaultCodes} (h : t.wf = true) {k l : FaultKind} (hkl : t.code k = t.code l) :
    k = l := by
  simp only [FaultCodes.wf, Bool.and_eq_true] at h
  have hnodup : t.all.Nodup := of_decide_eq_true h.1
  exact List.inj_on_of_nodup_map (t.all_eq_map ▸ hnodup) (mem_faultKinds k) (mem_faultKinds l) hkl

/-- No legal fault code is the exit status of a normal halt. -/
theorem FaultCodes.code_ne_zero {t : FaultCodes} (h : t.wf = true) (k : FaultKind) : t.code k ≠ 0#3 := by
  intro hzero
  have hmem : (0#3) ∈ t.all := by
    rw [FaultCodes.all_eq_map, ← hzero]
    exact List.mem_map_of_mem (mem_faultKinds k)
  simp [FaultCodes.wf, hmem] at h

theorem Config.faultCode_wf {c : Config} (h : c.wf = true) : c.faultCode.wf = true := by
  simp only [Config.wf, Bool.and_eq_true] at h
  exact h.2

end Sys2Proof
end

section
/-! Boot and the host's moves (60_exceptions.md R200; 70_reset_and_hazards.md R210 to R215). -/

namespace Sys2Proof.Machine

/-! ### The loaded image -/

/-- A loaded byte: the file's below 1024, else 0 (R213). -/
theorem read_loadImage (file : List Byte) (a : Nat) :
    Memory.read (loadImage file) a = if a < 1024 then file.getD a 0#8 else 0#8 :=
  read_imageFrom 0 a file (Nat.zero_le a)

/-- What stands in a file beyond 1024 bytes is ignored (R213). -/
theorem loadImage_take (file : List Byte) : loadImage (file.take 1024) = loadImage file := by
  refine Memory.ext_read (loadImage_wf _) (loadImage_wf _) fun a => ?_
  rw [read_loadImage, read_loadImage]
  split
  · rename_i ha
    rw [List.getD_eq_getElem?_getD, List.getD_eq_getElem?_getD, List.getElem?_take_of_lt ha]
  · rfl

/-! ### Sequences of moves -/

theorem hostActs_cons {a : HostAction} {b c : Block} (h : hostAct a b = .next c) (rest : List HostAction) :
    hostActs (a :: rest) b = hostActs rest c := by
  rw [hostActs, h]

theorem hostActs_nil (b : Block) : hostActs [] b = .next b := rfl

/-- Where the host may load, a load replaces `mem` (R213). -/
theorem hostAct_load_next {b : Block} (h : b.rst = true ∨ b.core.status ≠ .running) (file : List Byte) :
    hostAct (.load file) b = .next ⟨{ b.core with mem := loadImage file }, b.rst⟩ := by
  rw [hostAct_load, if_pos ((mayLoad_iff b).2 h)]

/-- Reset with a loaded program is the boot state, whether the load came before or after (R215). -/
theorem takeReset_with_load (s : State) (file : List Byte) :
    takeReset { s with mem := loadImage file } = boot s.cfg file := rfl

theorem hostActs_reset_load_release (b : Block) (file : List Byte) :
    hostActs [.assertReset, .load file, .releaseReset] b = .next ⟨boot b.core.cfg file, false⟩ := by
  rw [hostActs_cons (hostAct_assertReset b), hostActs_cons (hostAct_load_next (.inl rfl) file),
    hostActs_cons (hostAct_releaseReset _), hostActs_nil]
  rfl

theorem hostActs_load_reset_release {b : Block} (h : b.rst = true ∨ b.core.status ≠ .running) (file : List Byte) :
    hostActs [.load file, .assertReset, .releaseReset] b = .next ⟨boot b.core.cfg file, false⟩ := by
  rw [hostActs_cons (hostAct_load_next h file), hostActs_cons (hostAct_assertReset _),
    hostActs_cons (hostAct_releaseReset _), hostActs_nil, takeReset_with_load]

/-- Settles O54: the bytes of the image, and the three moves of a boot in either order. -/
theorem loadedImage : Obligations.LoadedImage := by
  refine ⟨fun cfg file a => ⟨fun ha _ => ?inside, fun ha => ?beyond, (loadImage_take file).symm⟩, fun b file =>
    ⟨hostActs_reset_load_release b file, fun h => hostActs_load_reset_release h file⟩⟩
  case inside => exact (read_loadImage file a).trans (if_pos ha)
  case beyond =>
    refine (read_loadImage file a).trans ?_
    rw [List.getD_eq_default _ _ ha, ite_self]

/-- Settles O60: each move, and CORE's own step, in each moment in which it has a meaning. -/
theorem hostMoves : Obligations.HostMoves := by
  intro b file
  refine ⟨fun hr => ⟨?report, fun hrst => ?load⟩, fun h => hostAct_load_next h file, fun hend => ?read,
    hostAct_assertReset b, fun hrst => ⟨?noEvent, clock_held hrst⟩,
    fun hrst => ⟨?event, fun t => clock_released hrst⟩⟩
  case report => rw [hostAct_readReport, if_neg (not_not.2 hr)]
  case load =>
    have hno : ¬ mayLoad b = true := by simp [mayLoad_iff, hr, hrst]
    rw [hostAct_load, if_neg hno]
  case read => rw [hostAct_readReport, if_pos hend]
  case noEvent => rw [Block.event, hrst, if_pos rfl]
  case event => simp [Block.event, hrst]

end Sys2Proof.Machine
end

section
/-! What the ports show of a step and of the end of a run (10_state.md R42 to R44; 60_exceptions.md R201 to R204). -/

namespace Sys2Proof.Machine

/-! ### The fetch and its event -/

theorem fetch_ok {s : State} (hp : s.pc < 1024) : fetch s = .ok (Memory.read s.mem s.pc) := if_pos hp

theorem fetch_error {s : State} (hp : 1024 ≤ s.pc) : fetch s = .error .programCounterOutOfBounds :=
  if_neg (Nat.not_lt.2 hp)

/-- No step fetches with reset held, after the end of the run, or with `pc` outside `mem`. -/
theorem fetches_eq_false {b : Block} (h : b.rst = true ∨ b.core.status ≠ .running ∨ 1024 ≤ b.core.pc) :
    fetches b = false := by
  rw [Bool.eq_false_iff, Ne, fetches_iff]
  rintro ⟨hrst, hr, hp⟩
  rcases h with h | h | h
  · rw [hrst] at h
    cases h
  · exact h hr
  · omega

/-- Settles O55: inside `mem` the low ten bits of `pc` are `pc`, and without a fetch the ports are silent. -/
theorem memoryPortGivesTheFetchedByte : Obligations.MemoryPortGivesTheFetchedByte := by
  intro b
  refine ⟨fun hrst hr hp => ?fetch, fun h => ?silent⟩
  case fetch =>
    have haddr : imemAddrPort b = some (BitVec.ofNat 10 b.core.pc) := if_pos ((fetches_iff b).2 ⟨hrst, hr, hp⟩)
    have hpc : (BitVec.ofNat 10 b.core.pc).toNat = b.core.pc := Nat.mod_eq_of_lt hp
    refine ⟨_, Memory.read b.core.mem b.core.pc, haddr, hpc, ?_, fetch_ok hp⟩
    rw [imemDataPort, haddr, Option.map_some, hpc]
  case silent =>
    have haddr : imemAddrPort b = none := if_neg (Bool.eq_false_iff.1 (fetches_eq_false h))
    exact ⟨haddr, by rw [imemDataPort, haddr, Option.map_none]⟩

/-- While `sc > 0` the event is the literal byte (R201). -/
theorem eventOf_literal {s : State} (hr : s.status = .running) (hp : s.pc < 1024) (hc : 0 < s.sc) :
    eventOf s = some (.literal (Memory.read s.mem s.pc)) := by
  simp [eventOf, hr, fetch_ok hp, modeOf_of_pos hc]

/-- In decode mode the event is the decoded instruction (R201). -/
theorem eventOf_decoded {s : State} (hr : s.status = .running) (hp : s.pc < 1024) (hc : s.sc = 0) :
    eventOf s = some (.decoded (decode s.cfg.opcodeMap 0 (Memory.read s.mem s.pc))) := by
  simp [eventOf, hr, fetch_ok hp, hc, modeOf, decode_zero]

theorem eventOf_none {s : State} (h : s.status ≠ .running ∨ 1024 ≤ s.pc) : eventOf s = none := by
  cases hs : s.status with
  | halted => simp [eventOf, hs]
  | faulted k => simp [eventOf, hs]
  | running => simp [eventOf, hs, fetch_error (h.resolve_left (not_not.2 hs))]

/-- Settles O56: a step that fetches emits one event in either mode, and no other state emits one. -/
theorem oneEventPerFetch : Obligations.OneEventPerFetch :=
  fun _ => ⟨fun hr hp => ⟨eventOf_literal hr hp, eventOf_decoded hr hp⟩, eventOf_none⟩

theorem Block.event_of_released {b : Block} (h : b.rst = false) : b.event = eventOf b.core := by
  simp [Block.event, h]

/-- Settles O57: `ev_valid` is the fetch, and the two other ports follow it. -/
theorem eventPortCarriesTheEvent : Obligations.EventPortCarriesTheEvent := by
  intro b
  refine ⟨fun hrst hr hp => ?event, fun h => ?silent⟩
  case event =>
    have hvalid : evValidPort b = true := (evValidPort_eq_fetches b).trans ((fetches_iff b).2 ⟨hrst, hr, hp⟩)
    refine ⟨hvalid, ?byte, fun hc => ?decoded, fun hc => ?literal⟩
    case byte => rw [evBytePort, if_pos hvalid, fetch_ok hp]; rfl
    case decoded => rw [evKindPort, b.event_of_released hrst, eventOf_decoded hr hp hc]; rfl
    case literal => rw [evKindPort, b.event_of_released hrst, eventOf_literal hr hp hc]; rfl
  case silent =>
    have hvalid : evValidPort b = false := (evValidPort_eq_fetches b).trans (fetches_eq_false h)
    have hevent : b.event = none := Option.isSome_eq_false_iff.1 hvalid |> Option.isNone_iff_eq_none.1
    exact ⟨hvalid, by rw [evKindPort, hevent]; rfl, by rw [evBytePort, hvalid]; rfl⟩

/-! ### The end of a run -/

/-- Settles O59: the report is the first bytes of the stacks that the names A to D stand for. -/
theorem finalReportLines : Obligations.FinalReportLines := by
  intro s
  refine ⟨fun hr => ?running, fun hend hnames => ?ended⟩
  case running => simp [finalReport, isTerminal, hr]
  case ended =>
    have hterminal : isTerminal s = true := decide_eq_true hend
    rw [finalReport, if_pos hterminal]
    simp [reportLine, hnames, StackNames.index]

/-- Three bits on eight wires stay apart. -/
theorem setWidth_eight_injective {x y : BitVec 3} (h : x.setWidth 8 = y.setWidth 8) : x = y := by
  refine BitVec.eq_of_toNat_eq ?_
  rw [← BitVec.toNat_setWidth_of_le (b := x) (by decide : 3 ≤ 8), h, BitVec.toNat_setWidth_of_le (by decide)]

theorem exitStatus_eq_none_iff (s : State) : exitStatus s = none ↔ s.status = .running := by
  cases hs : s.status <;> simp [exitStatus, hs]

/-- The code of a fault is no normal end. -/
theorem exitStatus_of_faulted_ne_zero {s : State} (h : s.cfg.wf = true) (k : FaultKind) :
    (s.cfg.faultCode.code k).setWidth 8 ≠ 0#8 :=
  fun hzero => FaultCodes.code_ne_zero (Config.faultCode_wf h) k (setWidth_eight_injective hzero)

theorem exitStatus_eq_zero_iff {s : State} (h : s.cfg.wf = true) : exitStatus s = some 0#8 ↔ s.status = .halted := by
  cases hs : s.status with
  | running => simp [exitStatus, hs]
  | halted => simp [exitStatus, hs]
  | faulted k => simpa [exitStatus, hs] using exitStatus_of_faulted_ne_zero h k

/-- Ended runs with one exit status ended in one way. -/
theorem status_eq_of_exitStatus_eq {s t : State} (h : s.cfg.wf = true) (hcfg : t.cfg = s.cfg)
    (hend : s.status ≠ .running) (hexit : exitStatus s = exitStatus t) : t.status = s.status := by
  cases hs : s.status with
  | running => exact absurd hs hend
  | halted =>
    rw [(exitStatus_eq_zero_iff h).2 hs] at hexit
    exact (exitStatus_eq_zero_iff (hcfg ▸ h)).1 hexit.symm
  | faulted k =>
    have hk : exitStatus s = some ((s.cfg.faultCode.code k).setWidth 8) := by rw [exitStatus, hs]
    rw [hk] at hexit
    cases ht : t.status with
    | running => rw [exitStatus, ht] at hexit; cases hexit
    | halted =>
      rw [exitStatus, ht] at hexit
      exact absurd (Option.some.inj hexit) (exitStatus_of_faulted_ne_zero h k)
    | faulted l =>
      rw [exitStatus, ht, hcfg] at hexit
      rw [FaultCodes.code_injective (Config.faultCode_wf h) (setWidth_eight_injective (Option.some.inj hexit))]

/-- `fault_kind` is non-zero exactly when `run_state` says FAULTED (R43). -/
theorem runStatePort_eq_two_iff {s : State} (h : s.cfg.wf = true) : runStatePort s = 2#2 ↔ faultKindPort s ≠ 0#3 := by
  cases hs : s.status with
  | running => simp [runStatePort, faultKindPort, hs]
  | halted => simp [runStatePort, faultKindPort, hs]
  | faulted k => simpa [runStatePort, faultKindPort, hs] using FaultCodes.code_ne_zero (Config.faultCode_wf h) k

/-- Settles O58: the codes are distinct and none is zero. -/
theorem exitStatusTellsTheEnd : Obligations.ExitStatusTellsTheEnd :=
  fun s _ hwf hcfg => ⟨exitStatus_eq_none_iff s, exitStatus_eq_zero_iff hwf, status_eq_of_exitStatus_eq hwf hcfg,
    runStatePort_eq_two_iff hwf⟩

end Sys2Proof.Machine
end
